-- ==== Sys2Proof/Word.lean ====
section
/-! DEFINITION. The words of the engine: bus words, bytes and binary64 bit patterns (R14, R130). -/

namespace Sys2Proof

/-- A bus data word, a bus address, a command word, a 32-bit register (R14). -/
abbrev Word := BitVec 32

/-- One byte of a bus word (R61). -/
abbrev Byte := BitVec 8

/-- An IEEE 754 binary64 bit pattern: bit 63 the sign, 62:52 the biased exponent, 51:0 the fraction (R130). -/
abbrev F64 := BitVec 64

end Sys2Proof
end

