-- ==== Sys2Proof/Syntax.lean ====
section
/-! DEFINITION. The nine commands of the engine, one constructor per row of spec/opcode_table.json (R102). -/

namespace Sys2Proof

/-- A command as the command decoder hands it to the engine: operands are the fields of R100, not yet extended. -/
inductive Instr where
  /-- NOP (R237). -/
  | nop
  /-- SET_BAND_GAIN: band index IDX and gain IMM (R211). -/
  | setBandGain (band : BitVec 4) (imm : BitVec 24)
  /-- SET_MASTER_GAIN (R212). -/
  | setMasterGain (imm : BitVec 24)
  /-- SET_ECHO_AMOUNT (R213). -/
  | setEchoAmount (imm : BitVec 24)
  /-- SET_ECHO_DELAY (R214). -/
  | setEchoDelay (imm : BitVec 24)
  /-- SET_ECHO_ENABLE: the enable bit CW[0] (R215). -/
  | setEchoEnable (enable : Bool)
  /-- SET_ECHO_MODE (R216). -/
  | setEchoMode (imm : BitVec 24)
  /-- PROCESS (R230). -/
  | process
  /-- RESET_STREAM (R235). -/
  | resetStream
  deriving DecidableEq, Repr

end Sys2Proof
end

