-- ==== Sys2Proof/WellFormed.lean ====
section
/-! DEFINITION. Which terms of Instr stand for a command word. -/

namespace Sys2Proof

/-- The one constraint R102 adds to the fields: the band index of SET_BAND_GAIN is in 0..9 (R101). -/
def wellFormed : Instr → Bool
  | .nop => true
  | .setBandGain band _ => decide (band.toNat ≤ 9)
  | .setMasterGain _ => true
  | .setEchoAmount _ => true
  | .setEchoDelay _ => true
  | .setEchoEnable _ => true
  | .setEchoMode _ => true
  | .process => true
  | .resetStream => true

end Sys2Proof
end

