-- ==== Sys2Proof/Decode.lean ====
section
/-! DEFINITION. The command decoder (R100 to R104), strict (D13): every word is one command or is illegal by name;
then the encoder of R107 and the rows of R102. -/

namespace Sys2Proof

/-- Why a word is no command: the cases R103 lists. -/
inductive Illegal where
  /-- OP 0x7 or 0xA to 0xF. -/
  | reservedOpcode
  /-- SET_BAND_GAIN with IDX 10 to 15. -/
  | bandIndex
  /-- A non-zero IDX on a SET command other than SET_BAND_GAIN. -/
  | strayIdx
  /-- SET_ECHO_ENABLE with CW[23:1] not zero. -/
  | enableValue
  /-- NOP, PROCESS or RESET_STREAM with a non-zero bit in CW[27:0]. -/
  | strayBits
  deriving DecidableEq, Repr

/-- OP, bits 31:28 (R100). -/
def opField (w : Word) : BitVec 4 := w.extractLsb' 28 4

/-- IDX, bits 27:24 (R100). -/
def idxField (w : Word) : BitVec 4 := w.extractLsb' 24 4

/-- IMM, bits 23:0 (R100). -/
def immField (w : Word) : BitVec 24 := w.extractLsb' 0 24

/-- A SET command whose IDX must be zero (R102). -/
def decodeImm (w : Word) (i : BitVec 24 → Instr) : Except Illegal Instr :=
  if idxField w = 0 then .ok (i (immField w)) else .error .strayIdx

/-- A command that carries no operand: all of CW[27:0] must be zero (R102). -/
def decodeBare (w : Word) (i : Instr) : Except Illegal Instr :=
  if w.extractLsb' 0 28 = (0 : BitVec 28) then .ok i else .error .strayBits

/-- SET_BAND_GAIN: IDX in 0..9 (R102). -/
def decodeBandGain (w : Word) : Except Illegal Instr :=
  if (idxField w).toNat ≤ 9 then .ok (.setBandGain (idxField w) (immField w)) else .error .bandIndex

/-- SET_ECHO_ENABLE: IDX = 0 and CW[23:1] = 0 (R102). -/
def decodeEnable (w : Word) : Except Illegal Instr :=
  if idxField w = 0 then
    if w.extractLsb' 1 23 = (0 : BitVec 23) then .ok (.setEchoEnable (w.getLsbD 0)) else .error .enableValue
  else .error .strayIdx

/-- The command a word is, or why it is illegal (R102, R103). -/
def decode (w : Word) : Except Illegal Instr :=
  match (opField w).toNat with
  | 0 => decodeBare w .nop
  | 1 => decodeBandGain w
  | 2 => decodeImm w .setMasterGain
  | 3 => decodeImm w .setEchoAmount
  | 4 => decodeImm w .setEchoDelay
  | 5 => decodeEnable w
  | 6 => decodeImm w .setEchoMode
  | 8 => decodeBare w .process
  | 9 => decodeBare w .resetStream
  | _ => .error .reservedOpcode

/-- The fields OP, IDX and IMM put side by side (R100). -/
def commandWord (op idx : BitVec 4) (imm : BitVec 24) : Word := (op ++ idx) ++ imm

/-- The word of a command (R107). -/
def encode : Instr → Word
  | .nop => commandWord 0 0 0
  | .setBandGain band imm => commandWord 1 band imm
  | .setMasterGain imm => commandWord 2 0 imm
  | .setEchoAmount imm => commandWord 3 0 imm
  | .setEchoDelay imm => commandWord 4 0 imm
  | .setEchoEnable e => commandWord 5 0 (if e then 1 else 0)
  | .setEchoMode imm => commandWord 6 0 imm
  | .process => commandWord 8 0 0
  | .resetStream => commandWord 9 0 0

/-- A row of the opcode table: a word w is of the row when (w AND mask) = pattern and, for SET_BAND_GAIN, IDX is in
0..9 (R102). -/
structure OpcodeRow where
  mnemonic : String
  pattern : Word
  mask : Word
  bandIndexed : Bool
  deriving DecidableEq, Repr

/-- Whether a word is of a row (R102). -/
def matchesRow (w : Word) (row : OpcodeRow) : Bool :=
  (w &&& row.mask == row.pattern) && (!row.bandIndexed || decide ((idxField w).toNat ≤ 9))

/-- The row a command belongs to (R102). -/
def rowOf : Instr → OpcodeRow
  | .nop => ⟨"NOP", 0x00000000, 0xFFFFFFFF, false⟩
  | .setBandGain _ _ => ⟨"SET_BAND_GAIN", 0x10000000, 0xF0000000, true⟩
  | .setMasterGain _ => ⟨"SET_MASTER_GAIN", 0x20000000, 0xFF000000, false⟩
  | .setEchoAmount _ => ⟨"SET_ECHO_AMOUNT", 0x30000000, 0xFF000000, false⟩
  | .setEchoDelay _ => ⟨"SET_ECHO_DELAY", 0x40000000, 0xFF000000, false⟩
  | .setEchoEnable _ => ⟨"SET_ECHO_ENABLE", 0x50000000, 0xFFFFFFFE, false⟩
  | .setEchoMode _ => ⟨"SET_ECHO_MODE", 0x60000000, 0xFF000000, false⟩
  | .process => ⟨"PROCESS", 0x80000000, 0xFFFFFFFF, false⟩
  | .resetStream => ⟨"RESET_STREAM", 0x90000000, 0xFFFFFFFF, false⟩

/-- The nine rows of R102, in the table's order. -/
def opcodeTable : List OpcodeRow :=
  [rowOf .nop, rowOf (.setBandGain 0 0), rowOf (.setMasterGain 0), rowOf (.setEchoAmount 0), rowOf (.setEchoDelay 0),
   rowOf (.setEchoEnable false), rowOf (.setEchoMode 0), rowOf .process, rowOf .resetStream]

/-- The low nbits bits of a number as a command word; the bits above nbits are zero. -/
def tableWord (nbits w : Nat) : Word := BitVec.ofNat 32 (w % 2 ^ nbits)

/-- What the decoder reads from a word the opcode table numbers: a command is always exactly one 32-bit word (R106),
so nothing longer is a command. -/
def decodeTableWord (nbits w : Nat) : Option Instr :=
  if nbits ≤ 32 then
    match decode (tableWord nbits w) with
    | .ok i => some i
    | .error _ => none
  else none

end Sys2Proof
end

