-- ==== Sys2Proof/Machine/Binary64.lean ====
section
/-! DEFINITION. IEEE 754 binary64 arithmetic with rounding to nearest, ties to even, gradual underflow, no fused
operations and one canonical NaN (R130 to R135, R140).

Every finite binary64 value is a whole number of units of 2^-1074, so each operation is exact in whole numbers and is
rounded once, at its end. -/

namespace Sys2Proof.Machine

/-- Bit 63 (R130). -/
def signBit (x : F64) : Bool := x.getLsbD 63

/-- Bits 62:0, the exponent and the fraction as one number: it orders the magnitudes. -/
def magBits (x : F64) : Nat := x.toNat % 2 ^ 63

/-- Bits 62:52, the biased exponent (R130). -/
def expField (x : F64) : Nat := magBits x / 2 ^ 52

/-- Bits 51:0, the fraction (R130). -/
def fracField (x : F64) : Nat := magBits x % 2 ^ 52

/-- The magnitude bits of infinity. -/
def infMag : Nat := 0x7FF0000000000000

def isNaN (x : F64) : Bool := decide (infMag < magBits x)

def isInf (x : F64) : Bool := decide (magBits x = infMag)

def isFinite (x : F64) : Bool := decide (magBits x < infMag)

/-- +0.0 or -0.0. -/
def isZero (x : F64) : Bool := decide (magBits x = 0)

/-- +0.0 (R15). -/
def posZero : F64 := 0

/-- -0.0 (R15). -/
def negZero : F64 := 0x8000000000000000

/-- The one NaN arithmetic returns (R132). -/
def canonicalNaN : F64 := 0x7FF8000000000000

/-- 1.0. -/
def one : F64 := 0x3FF0000000000000

/-- A sign and magnitude bits put together. -/
def ofSignMag (neg : Bool) (mag : Nat) : F64 := BitVec.ofNat 64 ((if neg then 2 ^ 63 else 0) + mag)

/-- The sign bit inverted. -/
def flipSign (x : F64) : F64 := x ^^^ 0x8000000000000000

/-- 2^1074: how many of the smallest subnormal make 1.0. -/
def unitScale : Nat := 2 ^ 1074

/-- |x| in units of 2^-1074, for finite x. -/
def scaledMag (x : F64) : Nat :=
  if expField x = 0 then fracField x else (2 ^ 52 + fracField x) * 2 ^ (expField x - 1)

/-- x in units of 2^-1074, for finite x. -/
def scaled (x : F64) : Int := if signBit x then -(scaledMag x : Int) else scaledMag x

/-- The number a finite pattern stands for. -/
def value (x : F64) : ℚ := (scaled x : ℚ) / (unitScale : ℚ)

/-- n / d to the nearest whole number, ties to the even one (R131). -/
def roundDiv (n d : Nat) : Nat :=
  if 2 * (n % d) < d then n / d
  else if d < 2 * (n % d) then n / d + 1
  else if n / d % 2 = 0 then n / d else n / d + 1

/-- The magnitude bits of n / d units of 2^-1074 rounded to nearest even: with k the exponent step, 53 significant bits
are kept, and a carry out of them moves into the exponent field; past the largest finite value it is infinity (R131). -/
def roundMag (n d : Nat) : Nat :=
  let k := Nat.log2 (n / d) - 52
  min (k * 2 ^ 52 + roundDiv n (d * 2 ^ k)) infMag

/-- Addition (R131): an exact sum of zero is +0.0 but for the sum of two negative zeros. -/
def fadd (x y : F64) : F64 :=
  if isNaN x || isNaN y then canonicalNaN
  else if isInf x then
    if isInf y && signBit x != signBit y then canonicalNaN else x
  else if isInf y then y
  else
    let sum := scaled x + scaled y
    if sum = 0 then ofSignMag (signBit x && signBit y) 0
    else ofSignMag (decide (sum < 0)) (roundMag sum.natAbs 1)

/-- Subtraction (R131): the sum with the second operand's sign inverted. -/
def fsub (x y : F64) : F64 := fadd x (flipSign y)

/-- Multiplication (R131): zero times infinity is the NaN. -/
def fmul (x y : F64) : F64 :=
  let neg := signBit x != signBit y
  if isNaN x || isNaN y then canonicalNaN
  else if isInf x || isInf y then
    if isZero x || isZero y then canonicalNaN else ofSignMag neg infMag
  else ofSignMag neg (roundMag (scaledMag x * scaledMag y) unitScale)

/-- Division (R131): 0/0 and infinity/infinity are the NaN, a non-zero value over zero is infinite. -/
def fdiv (x y : F64) : F64 :=
  let neg := signBit x != signBit y
  if isNaN x || isNaN y then canonicalNaN
  else if isInf x then
    if isInf y then canonicalNaN else ofSignMag neg infMag
  else if isInf y then ofSignMag neg 0
  else if isZero y then
    if isZero x then canonicalNaN else ofSignMag neg infMag
  else ofSignMag neg (roundMag (scaledMag x * unitScale) (scaledMag y))

/-- The binary64 value of an integer, exact below 2^53 (R133). -/
def cvt (i : Int) : F64 := ofSignMag (decide (i < 0)) (roundMag (i.natAbs * unitScale) 1)

/-- fsum(t1, ..., tk): sums from the left, each rounded; the sum of one term is that term (R140). -/
def fsum (first : F64) (rest : List F64) : F64 := rest.foldl fadd first

/-- The binary64 value nearest 0.02 (R134). -/
def c002 : F64 := 0x3F947AE147AE147B

/-- 100.0 (R135). -/
def c100 : F64 := 0x4059000000000000

/-- The scale of an integer gain (R134). -/
def gscale (k : Int) : F64 := fmul c002 (cvt k)

/-- The echo amount of an integer percentage (R135). -/
def ascale (a : Int) : F64 := fdiv (cvt a) c100

end Sys2Proof.Machine
end

