-- ==== Sys2Proof/Machine/Convolution.lean ====
section
/-! DEFINITION. The sample arrays of the datapath and what R136 and R137 ask of the transform-domain convolution. -/

namespace Sys2Proof

/-- B = 1024 samples (R7). -/
abbrev Block := Vector F64 1024

/-- L = 1025 taps (R9). -/
abbrev Taps := Vector F64 1025

/-- N = 2048 samples, one band's analysis window (R8, R170). -/
abbrev Window := Vector F64 2048

end Sys2Proof

namespace Sys2Proof.Machine

/-- c_ideal[m]: the exact sum over the taps of h[k] times x[1024 + m - k] (R136). -/
def idealSample (h : Taps) (x : Window) (m : Fin 1024) : ℚ :=
  ∑ k : Fin 1025, value h[k] * value (x[1024 + m.val - k.val]'(by omega))

/-- The sum of the magnitudes of the taps (R137 P2). -/
def tapSum (h : Taps) : ℚ := ∑ k : Fin 1025, |value h[k]|

/-- The largest magnitude in the window (R137 P2). -/
def windowMax (x : Window) : ℚ :=
  Finset.univ.sup' Finset.univ_nonempty fun j : Fin 2048 => |value x[j]|

/-- M of R137 P2. -/
def convMagnitude (h : Taps) (x : Window) : ℚ := tapSum h * windowMax x

def tapsFinite (h : Taps) : Prop := ∀ k : Fin 1025, isFinite h[k] = true

def windowFinite (x : Window) : Prop := ∀ j : Fin 2048, isFinite x[j] = true

def tapsZero (h : Taps) : Prop := ∀ k : Fin 1025, isZero h[k] = true

def windowZero (x : Window) : Prop := ∀ j : Fin 2048, isZero x[j] = true

/-- P1 (zeros) of R137. -/
def convZeros (conv : Taps → Window → Block) : Prop :=
  ∀ h x, (windowZero x ∧ tapsFinite h) ∨ (tapsZero h ∧ windowFinite x) →
    ∀ m : Fin 1024, isZero (conv h x)[m] = true

/-- P2 (accuracy) of R137. -/
def convAccurate (conv : Taps → Window → Block) (eps : ℝ) : Prop :=
  ∀ h x, tapsFinite h → windowFinite x → convMagnitude h x ≤ 2 ^ 1000 →
    ∀ m : Fin 1024, isFinite (conv h x)[m] = true ∧
      ((|value (conv h x)[m] - idealSample h x m| : ℚ) : ℝ) ≤ eps * ((convMagnitude h x : ℚ) : ℝ)

/-- The convolver that answers +0.0 everywhere: with EPS_CONV = 1 it has the properties of R137, so they can be met. -/
def zeroConv (_ : Taps) (_ : Window) : Block := Vector.replicate 1024 posZero

theorem value_posZero : value posZero = 0 := by
  have h : scaled posZero = 0 := by decide
  simp only [value, h, Int.cast_zero, zero_div]

/-- No ideal sample exceeds M. -/
theorem abs_idealSample_le (h : Taps) (x : Window) (m : Fin 1024) : |idealSample h x m| ≤ convMagnitude h x := by
  refine (Finset.abs_sum_le_sum_abs _ _).trans ?_
  rw [convMagnitude, tapSum, Finset.sum_mul]
  refine Finset.sum_le_sum fun k _ => ?_
  rw [abs_mul]
  refine mul_le_mul_of_nonneg_left ?_ (abs_nonneg _)
  exact Finset.le_sup' (fun j : Fin 2048 => |value x[j]|)
    (Finset.mem_univ (⟨1024 + m.val - k.val, by omega⟩ : Fin 2048))

theorem zeroConv_zeros : convZeros zeroConv := by
  intro h x _ m
  simp [zeroConv, posZero, isZero, magBits]

theorem zeroConv_accurate : convAccurate zeroConv 1 := by
  intro h x _ _ _ m
  have hz : (zeroConv h x)[m] = posZero := by simp [zeroConv]
  rw [hz, value_posZero]
  refine ⟨by decide, ?_⟩
  rw [one_mul, zero_sub, abs_neg]
  exact_mod_cast abs_idealSample_le h x m

end Sys2Proof.Machine
end

