-- ==== Sys2Proof/Config.lean ====
section
/-! DEFINITION. What an implementation fixes and the spec leaves open (R11 to R13), and the free values of R198. None of
these constants has a body: no proof can see which value it has. -/

namespace Sys2Proof

/-- The thirteen coefficients of a band (R12). -/
structure Coefs where
  G : F64
  a0 : F64
  b0 : F64
  c0 : F64
  e0 : F64
  f0 : F64
  g0 : F64
  b1 : F64
  c1 : F64
  d1 : F64
  e1 : F64
  f1 : F64
  g1 : F64
  deriving DecidableEq, Repr, Inhabited

/-- NUM_CONV and EPS_CONV with the properties R137 gives them and no others (R13). The defaults only show that the
properties can be met; the constant below is not known to be them. -/
structure Convolver where
  numConv : Taps → Window → Block := Machine.zeroConv
  epsConv : ℝ := 1
  epsConv_nonneg : 0 ≤ epsConv := by exact zero_le_one
  zeros : Machine.convZeros numConv := by exact Machine.zeroConv_zeros
  accurate : Machine.convAccurate numConv epsConv := by exact Machine.zeroConv_accurate
  deriving Inhabited

/-- D_MAX - 1: any number below 2^20 (R11). -/
opaque Config.dMaxPred : Fin 1048576

/-- D_MAX, the echo history capacity: any number in 1..2^20 (R11, D8). -/
def Config.dMax : Nat := Config.dMaxPred.val + 1

/-- COEF, the filter definitions of the ten bands, fixed at build time (R12, R43, D7). -/
opaque Config.coef : Vector Coefs 10

/-- The transform-domain convolution of this implementation (R13, R137, D6). -/
opaque Config.convolver : Convolver

/-- The n-th draw of R198: a free binary64 value under no law (D18, U4). -/
opaque Config.draw : Nat → F64

end Sys2Proof
end

