-- ==== Sys2Proof/Machine/State.lean ====
section
/-! DEFINITION. The state of the engine as 10_state.md lists it, the events the outside world sends it, and the state
after hardware reset (R52). -/

namespace Sys2Proof.Machine

/-- PHASE (R21). -/
inductive Phase where
  | init
  | idle
  | busy
  deriving DecidableEq, Repr

/-- The sticky error bits of STATUS, bits 8 to 12 (R22). -/
structure ErrorBits where
  cmd : Bool
  overrun : Bool
  range : Bool
  bus : Bool
  notReady : Bool
  deriving DecidableEq, Repr

/-- The error causes of R251, one for each sticky bit. -/
inductive ErrorBit where
  | cmd
  | overrun
  | range
  | bus
  | notReady
  deriving DecidableEq, Repr

/-- The configuration registers (R26 to R31). ECHO_ENABLE is a 32-bit register of which only bit 0 is stored; bits 31:1
read as 0 (R30). -/
structure Settings where
  gain : Vector Word 10
  master : Word
  echoAmount : Word
  echoDelay : Word
  echoEnable : Bool
  echoMode : Word
  deriving DecidableEq, Repr

/-- What happens next at the engine's boundary (R19): a bus access of a host, the engine's turn, or a hardware reset. A
size is a number of bytes; the data of a write is the word it carries, unused where the access is refused. -/
inductive Event where
  | read (size : Nat) (addr : Word)
  | write (size : Nat) (addr : Word) (data : Word)
  | engine
  | hardReset
  deriving DecidableEq, Repr

/-- The bytes of the sample windows by bus address, in canonical form (Memory.wf in Ops.lean): addresses strictly rising,
no byte listed that is 0, since a byte not listed reads as 0, the reset value of every sample (R47 to R49). -/
abbrev Memory := List Host.Cell

/-- The state of the engine, and the three fields of the model's own (pending, observed, draws). -/
structure State where
  /-- PHASE (R21). -/
  phase : Phase
  /-- STATUS bits 8 to 12 (R22). -/
  errors : ErrorBits
  /-- BLOCKS (R25). -/
  blocks : Word
  /-- GAIN, MASTER, ECHO_AMOUNT, ECHO_DELAY, ECHO_ENABLE, ECHO_MODE (R26 to R31). -/
  cfg : Settings
  /-- SNAP (R40). -/
  snap : Settings
  /-- SOS (R41). -/
  sos : Bool
  /-- SOS_USED (R42). -/
  sosUsed : Bool
  /-- HTAB (R44). -/
  htab : Vector Taps 10
  /-- CARRY (R45). -/
  carry : Vector Block 10
  /-- IN, OUT, HIST_DRY and HIST_WET (R47 to R49), as the bytes of their windows (R61, R66). -/
  mem : Memory
  /-- The model's own: how many draws of R198 have been taken. -/
  draws : Nat
  /-- The model's own: the events still to come, in bus order (R80). -/
  pending : List Event
  /-- The model's own: the values the reads have returned, oldest first (R293). -/
  observed : List Word
  deriving DecidableEq, Repr

/-- Why a step stops the machine: never. Every error of this hardware is a sticky bit and the engine goes on (R250), and
PROCESS_DONE cannot fail (R232), so no constructor is needed and none is raised. -/
inductive Fault
  deriving DecidableEq, Repr

/-- Why a step has no meaning in the model. -/
inductive Refusal where
  /-- Raised by an arm of exec for a command without a meaning; no arm does. Safe: the model stops. -/
  | notModelled (mnemonic : String)
  deriving DecidableEq, Repr

/-- No error bit set (R52). -/
def ErrorBits.none : ErrorBits := ⟨false, false, false, false, false⟩

/-- The configuration after reset: gains 25, echo off with amount, delay and mode 0 (R26 to R31, R52, D32). -/
def Settings.reset : Settings :=
  { gain := Vector.replicate 10 25, master := 25, echoAmount := 0, echoDelay := 0, echoEnable := false, echoMode := 0 }

/-- What the model gives SNAP after reset, where the spec leaves it unspecified and never reads it (R40): zeros.
DESIGN CHOICE (log entry 1), unsafe. -/
def Settings.unwritten : Settings :=
  { gain := Vector.replicate 10 0, master := 0, echoAmount := 0, echoDelay := 0, echoEnable := false, echoMode := 0 }

/-- The machine right after hardware reset (R52, R280). SNAP, SOS_USED and HTAB, which the spec leaves unspecified, are
zeros: DESIGN CHOICE (log entry 1), unsafe. -/
def State.reset : State :=
  { phase := .init
    errors := ErrorBits.none
    blocks := 0
    cfg := Settings.reset
    snap := Settings.unwritten
    sos := true
    sosUsed := false
    htab := Vector.replicate 10 (Vector.replicate 1025 0)
    carry := Vector.replicate 10 (Vector.replicate 1024 0)
    mem := []
    draws := 0
    pending := []
    observed := [] }

end Sys2Proof.Machine
end

