-- ==== Sys2Proof/Machine/Flags.lean ====
section
/-! DEFINITION. STATUS, the engine's one flag register (R22): how an error bit is set and how the word is put together. -/

namespace Sys2Proof.Machine

/-- The error bits with one more set; none is cleared (R250). -/
def ErrorBits.set (b : ErrorBit) (e : ErrorBits) : ErrorBits :=
  match b with
  | .cmd => { e with cmd := true }
  | .overrun => { e with overrun := true }
  | .range => { e with range := true }
  | .bus => { e with bus := true }
  | .notReady => { e with notReady := true }

/-- Whether an error bit is set. -/
def ErrorBits.has (e : ErrorBits) (b : ErrorBit) : Bool :=
  match b with
  | .cmd => e.cmd
  | .overrun => e.overrun
  | .range => e.range
  | .bus => e.bus
  | .notReady => e.notReady

/-- A word with one bit, where the flag is 1. -/
def flagAt (flag : Bool) (bit : Nat) : Word := if flag then BitVec.twoPow 32 bit else 0

/-- STATUS as a host reads it (R22): READY, BUSY and SOS are views of PHASE and SOS, reserved bits read as 0. -/
def statusWord (s : State) : Word :=
  flagAt (decide (s.phase ≠ .init)) 0 ||| flagAt (decide (s.phase = .busy)) 1 ||| flagAt s.sos 2
    ||| flagAt s.errors.cmd 8 ||| flagAt s.errors.overrun 9 ||| flagAt s.errors.range 10 ||| flagAt s.errors.bus 11
    ||| flagAt s.errors.notReady 12

end Sys2Proof.Machine
end

