-- ==== Sys2Proof/Machine/Operands.lean ====
section
/-! DEFINITION. Operands: the immediate and band index of a command (R101), and what a bus address names (R66). -/

namespace Sys2Proof.Machine

/-- sext_32 of the immediate (R101). -/
def signedImm (imm : BitVec 24) : Word := imm.signExtend 32

/-- 0 <= imm <= D_MAX on mathematical integers (R139, R214). -/
def delayInRange (dMax : Nat) (imm : BitVec 24) : Bool := decide (0 ≤ imm.toInt ∧ imm.toInt ≤ (dMax : Int))

/-- The registers a host can read (R66). -/
inductive Reg where
  | id
  | status
  | blocks
  | paramB
  | paramN
  | paramL
  | paramNB
  | paramDMax
  | gain (band : Fin 10)
  | master
  | echoAmount
  | echoDelay
  | echoEnable
  | echoMode
  deriving DecidableEq, Repr

/-- The four sample windows (R66). -/
inductive SampleWindow where
  | input
  | output
  | histDry
  | histWet
  deriving DecidableEq, Repr

/-- Where a window starts (R66). -/
def windowBase : SampleWindow → Nat
  | .input => 0x00010000
  | .output => 0x00020000
  | .histDry => 0x01000000
  | .histWet => 0x01800000

/-- How many samples a window holds (R66). -/
def windowLength (dMax : Nat) : SampleWindow → Nat
  | .input => 1024
  | .output => 1024
  | .histDry => dMax
  | .histWet => dMax

/-- The byte address of element j of a window (R61). -/
def sampleAddr (w : SampleWindow) (j : Nat) : Nat := windowBase w + 8 * j

/-- Whether a byte address lies in a window (R66). -/
def inWindow (dMax : Nat) (w : SampleWindow) (addr : Nat) : Bool :=
  decide (windowBase w ≤ addr ∧ addr < windowBase w + 8 * windowLength dMax w)

/-- What a bus address names (R66, R67). -/
inductive Target where
  | register (r : Reg)
  | command
  | sample (w : SampleWindow)
  | unmapped
  deriving DecidableEq, Repr

/-- The bus address of a register (R66). -/
def regAddr : Reg → Nat
  | .id => 0x00
  | .status => 0x04
  | .blocks => 0x0C
  | .paramB => 0x10
  | .paramN => 0x14
  | .paramL => 0x18
  | .paramNB => 0x1C
  | .paramDMax => 0x20
  | .gain b => 0x40 + 4 * b.val
  | .master => 0x68
  | .echoAmount => 0x6C
  | .echoDelay => 0x70
  | .echoEnable => 0x74
  | .echoMode => 0x78

/-- The address of CMD (R66). -/
def cmdAddr : Nat := 0x08

/-- The registers of the address map, in the order of their addresses (R66). -/
def allRegs : List Reg :=
  [.id, .status, .blocks, .paramB, .paramN, .paramL, .paramNB, .paramDMax,
   .gain 0, .gain 1, .gain 2, .gain 3, .gain 4, .gain 5, .gain 6, .gain 7, .gain 8, .gain 9,
   .master, .echoAmount, .echoDelay, .echoEnable, .echoMode]

/-- The windows of the address map (R66). -/
def allWindows : List SampleWindow := [.input, .output, .histDry, .histWet]

/-- What an aligned bus address names: the map of R66; every other address is unmapped (R67). -/
def locate (dMax : Nat) (addr : Nat) : Target :=
  if addr = cmdAddr then .command
  else match allRegs.find? (fun r => regAddr r == addr) with
    | some r => .register r
    | none =>
      match allWindows.find? (fun w => inWindow dMax w addr) with
      | some w => .sample w
      | none => .unmapped

end Sys2Proof.Machine
end

