-- ==== Sys2Proof/Machine/Ops.lean ====
section
/-! DEFINITION. The named operations over state: the window memory by bytes, words, samples and blocks (R61), the
registers as a host reads them (R70), raising an error (R250) and the INIT check of the command procedure (R104). -/

namespace Sys2Proof.Machine

/-- The canonical form of the window memory: addresses strictly rising and no byte listed that an unlisted address reads
as. -/
abbrev Memory.wf (m : Memory) : Prop := m.Pairwise (fun a b => a.1 < b.1) ∧ ∀ c ∈ m, c.2 ≠ 0

/-- The byte at an address; one that is not listed is 0. -/
def readByte (m : Memory) (a : Nat) : Byte :=
  match m with
  | [] => 0
  | (k, v) :: rest => if a < k then 0 else if a = k then v else readByte rest a

/-- The memory with one byte written, in canonical form again. -/
def writeByte (m : Memory) (a : Nat) (b : Byte) : Memory :=
  match m with
  | [] => if b = 0 then [] else [(a, b)]
  | (k, v) :: rest =>
    if a < k then (if b = 0 then (k, v) :: rest else (a, b) :: (k, v) :: rest)
    else if a = k then (if b = 0 then rest else (a, b) :: rest)
    else (k, v) :: writeByte rest a b

/-- The word at a byte address: little-endian (R61). -/
def readWord (m : Memory) (a : Nat) : Word :=
  readByte m (a + 3) ++ readByte m (a + 2) ++ readByte m (a + 1) ++ readByte m a

/-- The memory with a word written, little-endian (R61). -/
def writeWord (m : Memory) (a : Nat) (v : Word) : Memory :=
  writeByte (writeByte (writeByte (writeByte m a (v.extractLsb' 0 8)) (a + 1) (v.extractLsb' 8 8))
    (a + 2) (v.extractLsb' 16 8)) (a + 3) (v.extractLsb' 24 8)

/-- The sample whose bytes start at an address: its low word first (R61). -/
def readSample (m : Memory) (a : Nat) : F64 := readWord m (a + 4) ++ readWord m a

/-- The memory with a sample written, its low word first (R61). -/
def writeSample (m : Memory) (a : Nat) (x : F64) : Memory :=
  writeWord (writeWord m a (x.extractLsb' 0 32)) (a + 4) (x.extractLsb' 32 32)

/-- The memory with count consecutive samples written from an address on: sample j is x j. -/
def writeSamples (m : Memory) (a : Nat) (x : Nat → F64) (count : Nat) : Memory :=
  match count with
  | 0 => m
  | n + 1 => writeSample (writeSamples m a x n) (a + 8 * n) (x n)

/-- Element j of a window's array. -/
def sampleAt (m : Memory) (w : SampleWindow) (j : Nat) : F64 := readSample m (sampleAddr w j)

/-- IN[0..1023] (R48). -/
def inputBlock (m : Memory) : Block := Vector.ofFn fun j => sampleAt m .input j.val

/-- Element j of a block; there is none past 1023, and no rule reads one. -/
def blockAt (b : Block) (j : Nat) : F64 := b.toList.getD j posZero

/-- A register's value as it stands (R70): constants (R23, R24), STATUS (R22), BLOCKS (R25) and the configuration
registers (R26 to R31). -/
def readRegister (r : Reg) (s : State) : Word :=
  match r with
  | .id => 0x50445350
  | .status => statusWord s
  | .blocks => s.blocks
  | .paramB => 1024
  | .paramN => 2048
  | .paramL => 1025
  | .paramNB => 10
  | .paramDMax => BitVec.ofNat 32 Config.dMax
  | .gain band => s.cfg.gain[band]
  | .master => s.cfg.master
  | .echoAmount => s.cfg.echoAmount
  | .echoDelay => s.cfg.echoDelay
  | .echoEnable => if s.cfg.echoEnable then 1 else 0
  | .echoMode => s.cfg.echoMode

/-- raise Error(BIT): the sticky bit is set and nothing else changes (R250). -/
def raiseError (b : ErrorBit) (s : State) : State := { s with errors := s.errors.set b }

/-- The state with its configuration registers replaced, nothing else (R210). -/
def withSettings (c : Settings) (s : State) : State := { s with cfg := c }

/-- The state with the window memory replaced, nothing else (R71). -/
def withMemory (m : Memory) (s : State) : State := { s with mem := m }

/-- The state with other events still to come, nothing else (R80). -/
def withPending (events : List Event) (s : State) : State := { s with pending := events }

/-- A command that is legal in every phase but INIT: during INIT it raises ERR_NOTREADY and has no effect (R104, R284). -/
def unlessInit (effect : State → State) (s : State) : Host.Outcome State Fault Refusal :=
  if s.phase = .init then .next (raiseError .notReady s) else .next (effect s)

end Sys2Proof.Machine
end

