-- ==== Sys2Proof/Machine/ConfigCommands.lean ====
section
/-! DEFINITION. The six SET commands (44_config_commands.md): each writes one configuration register and nothing else
(R210). -/

namespace Sys2Proof.Machine

/-- SET_BAND_GAIN (R211): GAIN[b] <- sext_32(IMM). A band above 9 is in no legal word; a term that holds one does what
writing its word does, ERR_CMD (R103, R104). -/
def execSetBandGain (band : BitVec 4) (imm : BitVec 24) (s : State) : Host.Outcome State Fault Refusal :=
  if h : band.toNat < 10 then
    unlessInit (fun s => withSettings { s.cfg with gain := s.cfg.gain.set band.toNat (signedImm imm) } s) s
  else .next (raiseError .cmd s)

/-- SET_MASTER_GAIN (R212): MASTER <- sext_32(IMM). -/
def execSetMasterGain (imm : BitVec 24) (s : State) : Host.Outcome State Fault Refusal :=
  unlessInit (fun s => withSettings { s.cfg with master := signedImm imm } s) s

/-- SET_ECHO_AMOUNT (R213): ECHO_AMOUNT <- sext_32(IMM), without a range check. -/
def execSetEchoAmount (imm : BitVec 24) (s : State) : Host.Outcome State Fault Refusal :=
  unlessInit (fun s => withSettings { s.cfg with echoAmount := signedImm imm } s) s

/-- SET_ECHO_DELAY outside INIT (R214): a value outside 0..D_MAX raises ERR_RANGE and leaves ECHO_DELAY unchanged. -/
def setDelay (dMax : Nat) (imm : BitVec 24) (s : State) : State :=
  if delayInRange dMax imm then withSettings { s.cfg with echoDelay := signedImm imm } s else raiseError .range s

/-- SET_ECHO_DELAY (R214). -/
def execSetEchoDelay (imm : BitVec 24) (s : State) : Host.Outcome State Fault Refusal :=
  unlessInit (setDelay Config.dMax imm) s

/-- SET_ECHO_ENABLE (R215): ECHO_ENABLE <- zext_32(e). -/
def execSetEchoEnable (enable : Bool) (s : State) : Host.Outcome State Fault Refusal :=
  unlessInit (fun s => withSettings { s.cfg with echoEnable := enable } s) s

/-- SET_ECHO_MODE (R216): ECHO_MODE <- sext_32(IMM), any value (R105). -/
def execSetEchoMode (imm : BitVec 24) (s : State) : Host.Outcome State Fault Refusal :=
  unlessInit (fun s => withSettings { s.cfg with echoMode := signedImm imm } s) s

end Sys2Proof.Machine
end

