-- ==== Sys2Proof/Machine/StreamCommands.lean ====
section
/-! DEFINITION. NOP, PROCESS and RESET_STREAM (45_stream_commands.md). -/

namespace Sys2Proof.Machine

/-- NOP (R237): no state changes, in every phase. -/
def execNop (s : State) : Host.Outcome State Fault Refusal := .next s

/-- The block in IN is accepted (R230): the configuration and the start-of-stream flag are captured, and the phase becomes
BUSY. -/
def acceptBlock (s : State) : State :=
  { s with snap := s.cfg, sosUsed := s.sos, sos := false, phase := .busy }

/-- PROCESS outside INIT (R230): refused with ERR_OVERRUN while a block is in flight, which it leaves alone. -/
def processBlock (s : State) : State := if s.phase = .busy then raiseError .overrun s else acceptBlock s

/-- PROCESS (R230). -/
def execProcess (s : State) : Host.Outcome State Fault Refusal := unlessInit processBlock s

/-- The next block is the first of a new stream: SOS <- 1, nothing else (R235). -/
def restartStream (s : State) : State := { s with sos := true }

/-- RESET_STREAM (R235), also while BUSY. -/
def execResetStream (s : State) : Host.Outcome State Fault Refusal := unlessInit restartStream s

end Sys2Proof.Machine
end

