-- ==== Sys2Proof/Machine/Dispatch.lean ====
section
/-! DEFINITION. The command procedure's case over the commands (R104), one arm per row of the opcode table. -/

namespace Sys2Proof.Machine

def exec (i : Instr) (s : State) : Host.Outcome State Fault Refusal :=
  match i with
  | .nop => Sys2Proof.Machine.execNop s
  | .setBandGain band imm => Sys2Proof.Machine.execSetBandGain band imm s
  | .setMasterGain imm => Sys2Proof.Machine.execSetMasterGain imm s
  | .setEchoAmount imm => Sys2Proof.Machine.execSetEchoAmount imm s
  | .setEchoDelay imm => Sys2Proof.Machine.execSetEchoDelay imm s
  | .setEchoEnable enable => Sys2Proof.Machine.execSetEchoEnable enable s
  | .setEchoMode imm => Sys2Proof.Machine.execSetEchoMode imm s
  | .process => Sys2Proof.Machine.execProcess s
  | .resetStream => Sys2Proof.Machine.execResetStream s

end Sys2Proof.Machine
end

