-- ==== Sys2Proof/Machine/Echo.lean ====
section
/-! DEFINITION. The echo stage, the second stage of PROCESS_DONE (R190 to R198). Arrays come in as functions of an index:
dry[n], HIST_DRY[i] and HIST_WET[i] before this block's update, and the draws of R198. -/

namespace Sys2Proof.Machine

/-- D as an index distance (R190): the register holds a value in 0..D_MAX (R29). -/
def delayOf (c : Settings) : Nat := c.echoDelay.toInt.toNat

/-- Mode 1 is selected by the value 1 alone; every other value is Mode 0 (R192). -/
def isModeOne (c : Settings) : Bool := c.echoMode == 1

/-- One wet sample: Mode 1 (R194) or Mode 0 (R193). -/
def echoSample (modeOne : Bool) (a dry dryPrev wetPrev : F64) : F64 :=
  if modeOne then fadd dry (fmul a wetPrev) else fadd (fsub (fmul a wetPrev) (fmul a dry)) dryPrev

/-- dryPrev(n) (R191). -/
def dryPrev (dMax delay : Nat) (dry histDry : Nat → F64) (n : Nat) : F64 :=
  if delay ≤ n then dry (n - delay) else histDry (dMax + n - delay)

/-- wetPrev(n) (R191), the wet samples of this block so far coming most recent first; with delay 0 it is a draw (R198). -/
def wetPrev (dMax delay : Nat) (histWet draw : Nat → F64) (n : Nat) (wetSoFar : List F64) : F64 :=
  if delay = 0 then draw n
  else if delay ≤ n then wetSoFar.getD (delay - 1) posZero
  else histWet (dMax + n - delay)

/-- wet[count-1], ..., wet[0]: the loop over n in increasing order (R197). -/
def wetLoop (dMax delay : Nat) (modeOne : Bool) (a : F64) (dry histDry histWet draw : Nat → F64) (count : Nat) :
    List F64 :=
  match count with
  | 0 => []
  | n + 1 =>
    let soFar := wetLoop dMax delay modeOne a dry histDry histWet draw n
    echoSample modeOne a (dry n) (dryPrev dMax delay dry histDry n) (wetPrev dMax delay histWet draw n soFar) :: soFar

/-- wet[0..1023]: the dry samples bit for bit with the echo disabled (R195), else the selected mode's loop. -/
def wetMix (dMax : Nat) (snap : Settings) (dry : Block) (histDry histWet draw : Nat → F64) : Block :=
  if snap.echoEnable then
    let wet := (wetLoop dMax (delayOf snap) (isModeOne snap) (ascale snap.echoAmount.toInt) (blockAt dry) histDry
      histWet draw 1024).reverse
    Vector.ofFn fun n => wet.getD n.val posZero
  else dry

/-- How many draws a block takes: one per sample with the echo enabled and delay 0 (R198), else none. -/
def drawsTaken (snap : Settings) : Nat := if snap.echoEnable && decide (delayOf snap = 0) then 1024 else 0

/-- Element i of a history after the block (R196): the last D_MAX samples of the stream, the most recent last. -/
def historyNext (dMax : Nat) (old new : Nat → F64) (i : Nat) : F64 :=
  if i + 1024 < dMax then old (i + 1024) else new (i + 1024 - dMax)

end Sys2Proof.Machine
end

