-- ==== Sys2Proof/Machine/FilterBank.lean ====
section
/-! DEFINITION. The block convolver and the filter bank, the first stage of PROCESS_DONE (R170 to R175). -/

namespace Sys2Proof.Machine

/-- The analysis window of a band (R170): silence or the carry-over, then the new block. -/
def analysisWindow (sosUsed : Bool) (carry input : Block) : Window :=
  Vector.ofFn fun j =>
    if j.val < 1024 then (if sosUsed then posZero else blockAt carry j.val) else blockAt input (j.val - 1024)

/-- filtered_b: the convolution of the window, each sample scaled by the band's gain (R173, R174). -/
def bandOutput (conv : Taps → Window → Block) (gain : Word) (h : Taps) (x : Window) : Block :=
  let y := conv h x
  let g := gscale gain.toInt
  Vector.ofFn fun m => fmul y[m] g

/-- filtered_b for every band, each with its own taps, gain and carry-over (R170 to R174). -/
def filteredBands (conv : Taps → Window → Block) (snap : Settings) (htab : Vector Taps 10) (carry : Vector Block 10)
    (sosUsed : Bool) (input : Block) : Vector Block 10 :=
  Vector.ofFn fun b => bandOutput conv snap.gain[b] htab[b] (analysisWindow sosUsed carry[b] input)

/-- S[n]: the ten bands summed from band 0 on (R175). -/
def bandSum (filtered : Vector Block 10) (n : Fin 1024) : F64 :=
  fsum filtered[0][n]
    [filtered[1][n], filtered[2][n], filtered[3][n], filtered[4][n], filtered[5][n], filtered[6][n], filtered[7][n],
     filtered[8][n], filtered[9][n]]

/-- dry[0..1023]: the sum of the bands scaled by the master gain (R175). -/
def dryMix (master : Word) (filtered : Vector Block 10) : Block :=
  let gm := gscale master.toInt
  Vector.ofFn fun n => fmul gm (bandSum filtered n)

end Sys2Proof.Machine
end

