-- ==== Sys2Proof/Machine/FrequencyResponse.lean ====
section
/-! DEFINITION. The impulse response of a band (R151), which INIT_DONE stores for all ten bands (R282, R283). -/

namespace Sys2Proof.Machine

/-- The next tap from the six before it, most recent first (R151, n in 7..1024). -/
def nextTap (c : Coefs) (p1 p2 p3 p4 p5 p6 : F64) : F64 :=
  fsum (fmul c.b1 p1) [fmul c.c1 p2, fmul c.d1 p3, fmul c.e1 p4, fmul c.f1 p5, fmul c.g1 p6]

/-- count taps from R151's recursion for n >= 7, given the six taps before them, most recent first. -/
def tailTaps (c : Coefs) (count : Nat) (p1 p2 p3 p4 p5 p6 : F64) : List F64 :=
  match count with
  | 0 => []
  | n + 1 =>
    let h := nextTap c p1 p2 p3 p4 p5 p6
    h :: tailTaps c n h p1 p2 p3 p4 p5

/-- h[0] (R151). -/
def tap0 (c : Coefs) : F64 := fmul c.G c.a0

/-- h[1] (R151). -/
def tap1 (c : Coefs) : F64 := fsum (fmul c.G c.b0) [fmul c.b1 (tap0 c)]

/-- h[2] (R151). -/
def tap2 (c : Coefs) : F64 := fsum (fmul c.G c.c0) [fmul c.b1 (tap1 c), fmul c.c1 (tap0 c)]

/-- h[3], which has no feed-forward term (R151, G19). -/
def tap3 (c : Coefs) : F64 := fsum (fmul c.b1 (tap2 c)) [fmul c.c1 (tap1 c), fmul c.d1 (tap0 c)]

/-- h[4] (R151). -/
def tap4 (c : Coefs) : F64 :=
  fsum (fmul c.G c.e0) [fmul c.b1 (tap3 c), fmul c.c1 (tap2 c), fmul c.d1 (tap1 c), fmul c.e1 (tap0 c)]

/-- h[5] (R151). -/
def tap5 (c : Coefs) : F64 :=
  fsum (fmul c.G c.f0)
    [fmul c.b1 (tap4 c), fmul c.c1 (tap3 c), fmul c.d1 (tap2 c), fmul c.e1 (tap1 c), fmul c.f1 (tap0 c)]

/-- h[6] (R151). -/
def tap6 (c : Coefs) : F64 :=
  fsum (fmul c.G c.g0)
    [fmul c.b1 (tap5 c), fmul c.c1 (tap4 c), fmul c.d1 (tap3 c), fmul c.e1 (tap2 c), fmul c.f1 (tap1 c),
     fmul c.g1 (tap0 c)]

/-- h[0..count+6] as a list (R151). -/
def tapList (c : Coefs) (count : Nat) : List F64 :=
  [tap0 c, tap1 c, tap2 c, tap3 c, tap4 c, tap5 c, tap6 c]
    ++ tailTaps c count (tap6 c) (tap5 c) (tap4 c) (tap3 c) (tap2 c) (tap1 c)

/-- h[0..1024] (R151). -/
def impulseResponse (c : Coefs) : Taps :=
  let taps := tapList c 1018
  Vector.ofFn fun k => taps.getD k.val posZero

/-- HTAB as INIT_DONE leaves it: the taps of all ten bands (R282). -/
def filterTable (coef : Vector Coefs 10) : Vector Taps 10 := Vector.ofFn fun b => impulseResponse coef[b]

end Sys2Proof.Machine
end

