-- ==== Sys2Proof/Machine/Engine.lean ====
section
/-! DEFINITION. The engine's two internal steps (R19): INIT_DONE (R283) and PROCESS_DONE (R232), and hardware reset
(R280). -/

namespace Sys2Proof.Machine

/-- INIT_DONE (R283): HTAB is computed for all bands and the phase becomes IDLE. -/
def initDone (s : State) : State := { s with htab := filterTable Config.coef, phase := .idle }

/-- dry[0..1023] of the block in flight (R170 to R175). -/
def dryBlock (s : State) : Block :=
  dryMix s.snap.master
    (filteredBands Config.convolver.numConv s.snap s.htab s.carry s.sosUsed (inputBlock s.mem))

/-- wet[0..1023] of the block in flight, given its dry block (R190 to R198). -/
def wetBlock (s : State) (dry : Block) : Block :=
  wetMix Config.dMax s.snap dry (sampleAt s.mem .histDry) (sampleAt s.mem .histWet)
    (fun n => Config.draw (s.draws + n))

/-- The window memory after a block: OUT holds wet, both histories are updated from their old contents (R196, R232). -/
def storeBlock (m : Memory) (dry wet : Block) : Memory :=
  writeSamples
    (writeSamples
      (writeSamples m (windowBase .output) (blockAt wet) 1024)
      (windowBase .histDry) (historyNext Config.dMax (sampleAt m .histDry) (blockAt dry)) Config.dMax)
    (windowBase .histWet) (historyNext Config.dMax (sampleAt m .histWet) (blockAt wet)) Config.dMax

/-- PROCESS_DONE (R232): all effects of the block in flight at once. -/
def processDone (s : State) : State :=
  let dry := dryBlock s
  let wet := wetBlock s dry
  { s with
    carry := Vector.replicate 10 (inputBlock s.mem)
    mem := storeBlock s.mem dry wet
    draws := s.draws + drawsTaken s.snap
    blocks := s.blocks + 1
    phase := .idle }

/-- The engine's turn: the step its phase enables; in IDLE none is, and nothing happens (R19, R283, R232). -/
def engineStep (s : State) : State :=
  match s.phase with
  | .init => initDone s
  | .busy => processDone s
  | .idle => s

/-- Hardware reset (R280): every element of the engine at its reset value, a block or an initialisation in progress
abandoned. The events still to come, the values already read and the draws already taken are no state of the engine and
stay. -/
def hardwareReset (s : State) : State :=
  { State.reset with draws := s.draws, pending := s.pending, observed := s.observed }

end Sys2Proof.Machine
end

