-- ==== Sys2Proof/Machine/Bus.lean ====
section
/-! DEFINITION. The bus: a host's read (R70) and write (R71), the command port (R104), and one event at the engine's
boundary (R19, R80). -/

namespace Sys2Proof.Machine

/-- Whether an access has the one size and alignment there is (R62). -/
def isAligned (size : Nat) (addr : Word) : Bool := decide (size = 4 ∧ addr.toNat % 4 = 0)

/-- A refused read: ERR_BUS, and the value 0 (R62, R250). -/
def refuseRead (s : State) : Word × State := (0, raiseError .bus s)

/-- MemRead (R70): the value returned and the state after, checks in the order of R70. -/
def busRead (size : Nat) (addr : Word) (s : State) : Word × State :=
  if isAligned size addr then
    match locate Config.dMax addr.toNat with
    | .unmapped => refuseRead s
    | .command => refuseRead s
    | .register r => (readRegister r s, s)
    | .sample _ => if s.phase = .busy then refuseRead s else (readWord s.mem addr.toNat, s)
  else refuseRead s

/-- A word written to CMD (R104): an illegal word raises ERR_CMD, every other is its command. -/
def runCommand (w : Word) (s : State) : Host.Outcome State Fault Refusal :=
  match decode w with
  | .error _ => .next (raiseError .cmd s)
  | .ok i => exec i s

/-- A word written to a sample window (R71, R73, R74): OUT is read-only, the others are refused while BUSY. -/
def writeWindow (w : SampleWindow) (addr : Word) (data : Word) (s : State) : State :=
  match w with
  | .output => raiseError .bus s
  | .input | .histDry | .histWet =>
    if s.phase = .busy then raiseError .bus s else withMemory (writeWord s.mem addr.toNat data) s

/-- MemWrite (R71), checks in the order of R71. -/
def busWrite (size : Nat) (addr : Word) (data : Word) (s : State) : Host.Outcome State Fault Refusal :=
  if isAligned size addr then
    match locate Config.dMax addr.toNat with
    | .unmapped => .next (raiseError .bus s)
    | .command => runCommand data s
    | .register _ => .next (raiseError .bus s)
    | .sample w => .next (writeWindow w addr data s)
  else .next (raiseError .bus s)

/-- A host's read with the value it returned added to the observation (R293). -/
def observeRead (size : Nat) (addr : Word) (s : State) : State :=
  { (busRead size addr s).2 with observed := s.observed ++ [(busRead size addr s).1] }

/-- One event, whole at its point of the bus order (R80). -/
def perform (e : Event) (s : State) : Host.Outcome State Fault Refusal :=
  match e with
  | .read size addr => .next (observeRead size addr s)
  | .write size addr data => busWrite size addr data s
  | .engine => .next (engineStep s)
  | .hardReset => .next (hardwareReset s)

/-- The next event is taken from the list and performed; with none left the engine takes its turn, which is the weak
fairness of R291, and in IDLE the run has ended and the state stays (R293). -/
def nextEvent (s : State) : Host.Outcome State Fault Refusal :=
  match s.pending with
  | [] => .next (engineStep s)
  | e :: rest => perform e (withPending rest s)

end Sys2Proof.Machine
end

