-- ==== Sys2Proof/Machine/Step.lean ====
section
/-! DEFINITION. One step of the machine: one bus access, engine step or reset (R19, R80). -/

namespace Sys2Proof.Machine

/-- One step (R19, R80). -/
def step (s : State) : Host.Outcome State Fault Refusal := nextEvent s

/-- The state with a host's write of a command word to CMD as its next event: how a command reaches the engine (R3,
R104). -/
def State.withFetchWord (s : State) (nbits w : Nat) : State :=
  withPending (.write 4 (BitVec.ofNat 32 cmdAddr) (tableWord nbits w) :: s.pending) s

end Sys2Proof.Machine
end

