-- ==== Sys2Proof/Safety.lean ====
section
/-! DEFINITION. The terms claims are made in: a run without errors and its end, what a step leaves alone, the invariants of
the machine, agreement of two states, and correct rounding. -/

namespace Sys2Proof.Safety

open Sys2Proof.Machine

/-- No error bit is set: the premise R256 asks a claim about a host program to take. -/
def noErrorSet (s : State) : Prop := s.errors = ErrorBits.none

/-- The host program has performed its last access and the engine is IDLE (R293). -/
def runEnded (s : State) : Prop := s.pending = [] ∧ s.phase = .idle

/-! ### What a step leaves alone -/

/-- Every byte of the windows reads as before. -/
def sameMemory (s t : State) : Prop := ∀ a, readByte t.mem a = readByte s.mem a

/-- Every readable register but those named reads as before. -/
def sameRegistersBut (changed : Reg → Prop) (s t : State) : Prop :=
  ∀ r, ¬ changed r → readRegister r t = readRegister r s

/-- PHASE, SOS and the error bits, of which STATUS is the view, are as before. -/
def sameStatus (s t : State) : Prop := t.phase = s.phase ∧ t.sos = s.sos ∧ t.errors = s.errors

/-- HTAB and CARRY are as before. -/
def sameTables (s t : State) : Prop := t.htab = s.htab ∧ t.carry = s.carry

/-- SNAP and SOS_USED are as before. -/
def sameCapture (s t : State) : Prop := t.snap = s.snap ∧ t.sosUsed = s.sosUsed

/-- The model's own fields are as before. -/
def sameOutside (s t : State) : Prop := t.draws = s.draws ∧ t.pending = s.pending ∧ t.observed = s.observed

/-- One error bit is set and nothing else is changed: what raise Error(BIT) does (R250). -/
def onlyErrorSet (b : ErrorBit) (s t : State) : Prop :=
  t.errors.has b = true ∧ (∀ c, c ≠ b → t.errors.has c = s.errors.has c) ∧ t.phase = s.phase ∧ t.sos = s.sos ∧
    sameRegistersBut (· = .status) s t ∧ sameMemory s t ∧ sameTables s t ∧ sameCapture s t ∧ sameOutside s t

/-- One configuration register holds a new value and nothing else is changed: what a SET command does (R210). -/
def onlyRegisterSet (r : Reg) (v : Word) (s t : State) : Prop :=
  readRegister r t = v ∧ sameRegistersBut (· = r) s t ∧ sameStatus s t ∧ sameMemory s t ∧ sameTables s t ∧
    sameCapture s t ∧ sameOutside s t

/-! ### Whose turn it is -/

/-- The engine takes the next step, and rest is what is still to come after it: it is asked to, or no event is left. -/
def engineTurn (s : State) (rest : List Event) : Prop :=
  s.pending = .engine :: rest ∨ (s.pending = [] ∧ rest = [])

/-- The next step is no hardware reset. -/
def noReset (s : State) : Prop := ∀ rest, s.pending ≠ .hardReset :: rest

/-- The next step is no write to CMD. -/
def noCommand (s : State) : Prop :=
  ∀ size data rest, s.pending ≠ .write size (BitVec.ofNat 32 cmdAddr) data :: rest

/-! ### Invariants -/

/-- The window memory is in canonical form and lists bytes of the windows only. -/
def memoryLegal (s : State) : Prop :=
  Memory.wf s.mem ∧ ∀ c ∈ s.mem, ∃ w, inWindow Config.dMax w c.1 = true

/-- A delay in 0..D_MAX (R29). -/
def delayLegal (c : Settings) : Prop := 0 ≤ c.echoDelay.toInt ∧ c.echoDelay.toInt ≤ (Config.dMax : Int)

/-- ECHO_DELAY is always in 0..D_MAX, and so is the copy a block uses (R29, R190). -/
def delaysLegal (s : State) : Prop := delayLegal s.cfg ∧ delayLegal s.snap

/-- The ten carry-over buffers hold equal contents (R46). -/
def carriesEqual (s : State) : Prop := ∀ b b' : Fin 10, s.carry[b] = s.carry[b']

/-- From INIT_DONE on HTAB is the table of R151 (R44). -/
def tableFixed (s : State) : Prop := s.phase ≠ .init → s.htab = filterTable Config.coef

/-- A register holds a number of magnitude at most 2^23. -/
def narrow (w : Word) : Prop := -2 ^ 23 ≤ w.toInt ∧ w.toInt ≤ 2 ^ 23

/-- The integers that are converted to binary64 have magnitude at most 2^23 (R133). -/
def convertedNarrow (c : Settings) : Prop := (∀ b : Fin 10, narrow c.gain[b]) ∧ narrow c.master ∧ narrow c.echoAmount

def integersNarrow (s : State) : Prop := convertedNarrow s.cfg ∧ convertedNarrow s.snap

/-! ### Agreement of two states -/

/-- CARRY will not be read before it is written: the next block, or the one in flight, is the first of its stream (R45,
R177). -/
def carryUnread (s : State) : Prop := (s.phase ≠ .busy ∧ s.sos = true) ∨ (s.phase = .busy ∧ s.sosUsed = true)

/-- Two states equal but for CARRY. -/
def agreeButCarry (s t : State) : Prop := { s with carry := t.carry } = t

/-- Two states equal but for what the spec leaves unspecified after reset: SNAP and SOS_USED where no block is in flight
(R40, R42), HTAB during INIT (R44). -/
def agreeButUnspecified (s t : State) : Prop :=
  t.phase = s.phase ∧ t.errors = s.errors ∧ t.blocks = s.blocks ∧ t.cfg = s.cfg ∧ t.sos = s.sos ∧ t.carry = s.carry ∧
    t.mem = s.mem ∧ sameOutside s t ∧ (s.phase = .busy → sameCapture s t) ∧ (s.phase ≠ .init → t.htab = s.htab)

/-! ### The datapath in the spec's terms -/

/-- dry[0..1023] of the block in flight as R170, R173, R174 and R175 give it: from the ten windows x_b, the ten filtered
blocks, their sum from band 0 on, and the master scale. -/
def isDryMix (s : State) (dry : Nat → F64) : Prop :=
  ∃ (x : Fin 10 → Window) (filtered : Fin 10 → Fin 1024 → F64),
    (∀ (b : Fin 10) (j : Fin 1024),
      (x b)[j.val] = (if s.sosUsed = true then posZero else (s.carry[b])[j]) ∧
        (x b)[1024 + j.val] = sampleAt s.mem .input j.val) ∧
    (∀ (b : Fin 10) (m : Fin 1024),
      filtered b m = fmul (Config.convolver.numConv s.htab[b] (x b))[m] (gscale s.snap.gain[b].toInt)) ∧
    ∀ n : Fin 1024, dry n.val = fmul (gscale s.snap.master.toInt)
      (fsum (filtered 0 n) [filtered 1 n, filtered 2 n, filtered 3 n, filtered 4 n, filtered 5 n, filtered 6 n,
        filtered 7 n, filtered 8 n, filtered 9 n])

/-- Every value NUM_CONV answers for the block in flight is finite. -/
def convolutionsFinite (s : State) : Prop :=
  ∀ (b : Fin 10) (m : Fin 1024),
    isFinite (Config.convolver.numConv s.htab[b]
      (analysisWindow s.sosUsed s.carry[b] (inputBlock s.mem)))[m] = true

/-! ### Correct rounding (R131) -/

/-- r is the non-zero number q rounded to binary64, to nearest and ties to even: of no finite value is q nearer, at a tie r
is the one with an even fraction, and from half a unit past the largest finite value on r is infinite; the sign is q's. -/
def roundsTo (q : ℚ) (r : F64) : Prop :=
  signBit r = decide (q < 0) ∧
    (if (2 : ℚ) ^ 1024 - 2 ^ 970 ≤ |q| then isInf r = true
     else isFinite r = true ∧ ∀ z : F64, isFinite z = true →
       |q - value r| ≤ |q - value z| ∧
         (|q - value r| = |q - value z| → value z ≠ value r → fracField r % 2 = 0))

end Sys2Proof.Safety
end

