-- ==== Sys2Proof/Certificates/Slice0/Obligations.lean ====
section
/-! DEFINITION. The statements for the provers: what spec/ says the commands, the bus, the engine and the arithmetic do. -/

open Sys2Proof Sys2Proof.Machine Sys2Proof.Safety

/-! ### Encoding -/

/-- The decoder reads back the word of every well-formed command, every operand at every value (R100 to R102, R107). -/
def Obligations.DecodeOfEncode : Prop := ∀ i : Instr, wellFormed i = true → decode (encode i) = .ok i

/-- A word that decodes is the word of the command it decodes to, and that command is well-formed: every word has at most
one meaning, and no bit of it is ignored (R103, D13). -/
def Obligations.EncodeOfDecode : Prop :=
  ∀ (w : Word) (i : Instr), decode w = .ok i → wellFormed i = true ∧ encode i = w

/-- R102: a word selects the command whose row it matches, extra constraint included, with the row's operands; no word
matches two rows. -/
def Obligations.RowsSelectCommands : Prop :=
  ∀ w : Word,
    (∀ row ∈ opcodeTable, matchesRow w row = true →
      (∃ i, decode w = .ok i ∧ rowOf i = row) ∧ ∀ row' ∈ opcodeTable, matchesRow w row' = true → row' = row) ∧
    ∀ i, decode w = .ok i → rowOf i ∈ opcodeTable ∧ matchesRow w (rowOf i) = true ∧
      match i with
      | .setBandGain band imm => band = w.extractLsb' 24 4 ∧ imm = w.extractLsb' 0 24
      | .setMasterGain imm | .setEchoAmount imm | .setEchoDelay imm | .setEchoMode imm => imm = w.extractLsb' 0 24
      | .setEchoEnable e => e = w.getLsbD 0
      | .nop | .process | .resetStream => True

/-- Words written out from the tables of R102 and R107, one of every command and four illegal ones. -/
def Obligations.WrittenOutWordsDecode : Prop :=
  decode 0x00000000 = .ok .nop ∧ decode 0x13000019 = .ok (.setBandGain 3 25) ∧
    decode 0x20000032 = .ok (.setMasterGain 50) ∧ decode 0x30000032 = .ok (.setEchoAmount 50) ∧
    decode 0x40FFFFFF = .ok (.setEchoDelay 0xFFFFFF) ∧ decode 0x50000001 = .ok (.setEchoEnable true) ∧
    decode 0x60000007 = .ok (.setEchoMode 7) ∧ decode 0x80000000 = .ok .process ∧
    decode 0x90000000 = .ok .resetStream ∧ decode 0x1A000019 = .error .bandIndex ∧
    decode 0x21000032 = .error .strayIdx ∧ decode 0x50000002 = .error .enableValue ∧
    decode 0x70000000 = .error .reservedOpcode

/-! ### The step -/

/-- A host's write of a legal command word to CMD runs that command at its point of the bus order (R71, R84, R104), and
withFetchWord places such a write. -/
def Obligations.StepRunsDecodedCommand : Prop :=
  (∀ (s : State) (w : Word) (i : Instr) (rest : List Event),
      s.pending = .write 4 (BitVec.ofNat 32 cmdAddr) w :: rest → decode w = .ok i →
        step s = exec i (withPending rest s)) ∧
    ∀ (s : State) (nbits w : Nat) (i : Instr),
      decodeTableWord nbits w = some i → step (s.withFetchWord nbits w) = exec i s

/-- R103: exactly the listed encodings match no row, and writing a word that matches no row raises ERR_CMD, in every phase, and has
no other effect. -/
def Obligations.IllegalWordsOnlySetErrCmd : Prop :=
  (∀ w : Word,
      opField w = 7 ∨ 10 ≤ (opField w).toNat ∨ (opField w = 1 ∧ 10 ≤ (idxField w).toNat) ∨
        (opField w ∈ [2, 3, 4, 5, 6] ∧ idxField w ≠ 0) ∨ (opField w = 5 ∧ w.extractLsb' 1 23 ≠ (0 : BitVec 23)) ∨
        (opField w ∈ [0, 8, 9] ∧ w.extractLsb' 0 28 ≠ (0 : BitVec 28)) ↔
      ∀ row ∈ opcodeTable, matchesRow w row = false) ∧
    ∀ (s : State) (w : Word) (rest : List Event),
      s.pending = .write 4 (BitVec.ofNat 32 cmdAddr) w :: rest → (∀ row ∈ opcodeTable, matchesRow w row = false) →
        ∃ t, step s = .next t ∧ onlyErrorSet .cmd (withPending rest s) t

/-- No state is stuck: every step answers a next state, whatever the bus access and whatever the phase (R232, R250). -/
def Obligations.EveryStepAnswersNext : Prop := ∀ s : State, ∃ t, step s = .next t

/-- Weak fairness over the finite list of events: one step after the last event the run has ended, the initialisation or
block in flight completed (R291 to R293). The list as the scheduler is the model's choice (log entry 2). -/
def Obligations.EveryRunEnds : Prop :=
  ∀ s : State, ∃ t, core.run (s.pending.length + 1) s = .next t ∧ runEnded t

/-- R21: PHASE is INIT after reset, is read through READY and BUSY, and changes only by hardware reset, INIT_DONE, an
accepted PROCESS and PROCESS_DONE, each as R21 says. -/
def Obligations.PhaseChangesOnlyAsStated : Prop :=
  State.reset.phase = .init ∧
    (∀ s : State, (readRegister .status s).getLsbD 0 = decide (s.phase ≠ .init) ∧
      (readRegister .status s).getLsbD 1 = decide (s.phase = .busy)) ∧
    ∀ s t : State, step s = .next t →
      t.phase = s.phase ∨
        (t.phase = .init ∧ ∃ rest, s.pending = .hardReset :: rest) ∨
        (s.phase = .init ∧ t.phase = .idle ∧ ∃ rest, engineTurn s rest) ∨
        (s.phase = .idle ∧ t.phase = .busy ∧
          ∃ size rest, s.pending = .write size (BitVec.ofNat 32 cmdAddr) 0x80000000 :: rest) ∨
        (s.phase = .busy ∧ t.phase = .idle ∧ ∃ rest, engineTurn s rest)

/-! ### Reset -/

/-- R52: the value of every state element after hardware reset that the spec gives one. -/
def Obligations.ResetValues : Prop :=
  State.reset.phase = .init ∧ readRegister .status State.reset = 0x00000004 ∧
    readRegister .id State.reset = 0x50445350 ∧ readRegister .paramB State.reset = 1024 ∧
    readRegister .paramN State.reset = 2048 ∧ readRegister .paramL State.reset = 1025 ∧
    readRegister .paramNB State.reset = 10 ∧ readRegister .paramDMax State.reset = BitVec.ofNat 32 Config.dMax ∧
    readRegister .blocks State.reset = 0 ∧ (∀ b : Fin 10, readRegister (.gain b) State.reset = 25) ∧
    readRegister .master State.reset = 25 ∧ readRegister .echoAmount State.reset = 0 ∧
    readRegister .echoDelay State.reset = 0 ∧ readRegister .echoEnable State.reset = 0 ∧
    readRegister .echoMode State.reset = 0 ∧ State.reset.sos = true ∧ noErrorSet State.reset ∧
    (∀ (b : Fin 10) (j : Fin 1024), (State.reset.carry[b])[j] = posZero) ∧
    ∀ w j, sampleAt State.reset.mem w j = posZero

/-- R280: hardware reset, between any two steps and in any phase, sets every element of the engine to its value after
reset and leaves no result of a block or an initialisation in progress. That the model's own fields stay (the events still to
come, the values already read, the count of draws) is no rule of the spec but the model's choice (log entry 17, and log
entry 6 for the count of draws). -/
def Obligations.HardwareResetRestoresAll : Prop :=
  ∀ (s : State) (rest : List Event), s.pending = .hardReset :: rest →
    ∃ t, step s = .next t ∧ t.phase = .init ∧ readRegister .status t = 0x00000004 ∧ readRegister .blocks t = 0 ∧
      (∀ b : Fin 10, readRegister (.gain b) t = 25) ∧ readRegister .master t = 25 ∧ readRegister .echoAmount t = 0 ∧
      readRegister .echoDelay t = 0 ∧ readRegister .echoEnable t = 0 ∧ readRegister .echoMode t = 0 ∧ t.sos = true ∧
      noErrorSet t ∧
      (∀ (b : Fin 10) (j : Fin 1024), (t.carry[b])[j] = posZero) ∧ (∀ w j, sampleAt t.mem w j = posZero) ∧
      t.draws = s.draws ∧ t.observed = s.observed ∧ t.pending = rest

/-! ### Configuration commands -/

/-- SET_BAND_GAIN (R211): outside INIT it completes, GAIN[b] holds the sign-extended immediate and nothing else changes. -/
def Obligations.SetBandGainWritesItsGain : Prop :=
  ∀ (b : Fin 10) (imm : BitVec 24) (s : State), s.phase ≠ .init →
    ∃ t, exec (.setBandGain (BitVec.ofNat 4 b.val) imm) s = .next t ∧
      onlyRegisterSet (.gain b) (imm.signExtend 32) s t

/-- SET_MASTER_GAIN, SET_ECHO_AMOUNT and SET_ECHO_MODE (R212, R213, R216): outside INIT each completes for every immediate,
its register holds the sign-extended immediate and nothing else changes. -/
def Obligations.SetWordRegisters : Prop :=
  ∀ (imm : BitVec 24) (s : State), s.phase ≠ .init →
    (∃ t, exec (.setMasterGain imm) s = .next t ∧ onlyRegisterSet .master (imm.signExtend 32) s t) ∧
    (∃ t, exec (.setEchoAmount imm) s = .next t ∧ onlyRegisterSet .echoAmount (imm.signExtend 32) s t) ∧
    ∃ t, exec (.setEchoMode imm) s = .next t ∧ onlyRegisterSet .echoMode (imm.signExtend 32) s t

/-- SET_ECHO_DELAY with 0 <= imm <= D_MAX (R214): outside INIT it completes and writes ECHO_DELAY alone. -/
def Obligations.SetEchoDelayInRange : Prop :=
  ∀ (imm : BitVec 24) (s : State), s.phase ≠ .init → 0 ≤ imm.toInt → imm.toInt ≤ (Config.dMax : Int) →
    ∃ t, exec (.setEchoDelay imm) s = .next t ∧ onlyRegisterSet .echoDelay (imm.signExtend 32) s t

/-- SET_ECHO_DELAY outside 0..D_MAX (R214): ERR_RANGE alone, also while BUSY; ECHO_DELAY is unchanged. -/
def Obligations.SetEchoDelayOutOfRange : Prop :=
  ∀ (imm : BitVec 24) (s : State), s.phase ≠ .init → (imm.toInt < 0 ∨ (Config.dMax : Int) < imm.toInt) →
    ∃ t, exec (.setEchoDelay imm) s = .next t ∧ onlyErrorSet .range s t

/-- SET_ECHO_ENABLE (R215): outside INIT it completes and ECHO_ENABLE reads as the enable bit, zero-extended. -/
def Obligations.SetEchoEnableWritesBit : Prop :=
  ∀ (e : Bool) (s : State), s.phase ≠ .init →
    ∃ t, exec (.setEchoEnable e) s = .next t ∧ onlyRegisterSet .echoEnable ((BitVec.ofBool e).zeroExtend 32) s t

/-! ### Stream commands -/

/-- PROCESS in IDLE (R230): the configuration and SOS are captured, SOS becomes 0, PHASE becomes BUSY, and nothing else
changes: of the registers STATUS alone. -/
def Obligations.ProcessAcceptsBlock : Prop :=
  ∀ s : State, s.phase = .idle →
    ∃ t, exec .process s = .next t ∧ t.snap = s.cfg ∧ t.sosUsed = s.sos ∧ t.sos = false ∧ t.phase = .busy ∧
      t.errors = s.errors ∧ sameRegistersBut (· = .status) s t ∧ sameMemory s t ∧ sameTables s t ∧ sameOutside s t

/-- PROCESS in BUSY (R230, R287): ERR_OVERRUN alone; the block in flight is unaffected. -/
def Obligations.ProcessWhileBusyRefused : Prop :=
  ∀ s : State, s.phase = .busy → ∃ t, exec .process s = .next t ∧ onlyErrorSet .overrun s t

/-- RESET_STREAM (R235): outside INIT it completes, SOS becomes 1, and nothing else changes: not CARRY, not the histories,
not the block in flight. -/
def Obligations.ResetStreamSetsSosOnly : Prop :=
  ∀ s : State, s.phase ≠ .init →
    ∃ t, exec .resetStream s = .next t ∧ t.sos = true ∧ t.phase = s.phase ∧ t.errors = s.errors ∧
      sameRegistersBut (· = .status) s t ∧ sameMemory s t ∧ sameTables s t ∧ sameCapture s t ∧ sameOutside s t

/-- NOP (R237): in every phase no state changes, its word written to CMD is a NOP, and any other word with OP = 0 is
illegal: writing it raises ERR_CMD alone. -/
def Obligations.NopChangesNothing : Prop :=
  (∀ s : State, exec .nop s = .next s) ∧
    ∀ (s : State) (rest : List Event) (w : Word),
      s.pending = .write 4 (BitVec.ofNat 32 cmdAddr) w :: rest →
        (w = 0 → step s = .next (withPending rest s)) ∧
          (opField w = 0 → w ≠ 0 → ∃ t, step s = .next t ∧ onlyErrorSet .cmd (withPending rest s) t)

/-- During INIT every command but NOP raises ERR_NOTREADY and has no effect (R104, R284, R289). -/
def Obligations.CommandsDuringInitRefused : Prop :=
  ∀ (i : Instr) (s : State), s.phase = .init → i ≠ .nop → wellFormed i = true →
    ∃ t, exec i s = .next t ∧ onlyErrorSet .notReady s t

/-- No command written while BUSY changes what the block in flight gives (R40, R210, R230, R235, R237): OUT, the histories,
CARRY, BLOCKS and the draws taken are the same whether or not it was written. With delay 0 and the echo enabled, OUT and the
histories are the same because both runs take the same draws, which is the model's choice and not the hardware's (log
entry 6): R198 leaves the draws free. -/
def Obligations.CommandsLeaveBlockInFlightAlone : Prop :=
  ∀ (i : Instr) (s : State), s.phase = .busy →
    ∃ t, exec i s = .next t ∧ sameMemory (engineStep s) (engineStep t) ∧
      (engineStep t).carry = (engineStep s).carry ∧ (engineStep t).blocks = (engineStep s).blocks ∧
      (engineStep t).draws = (engineStep s).draws ∧ (engineStep t).phase = .idle

/-- The stale CARRY of the stream before is never observed (R45, R177, R235): two states that differ in CARRY alone, where the
block in flight or the next one is the first of its stream, step alike, and stay so or become equal. For a block with delay
0 and the echo enabled this rests on both taking the same draws, which is the model's choice (log entry 6), unsafe in such a
comparison: R198 leaves the draws free. -/
def Obligations.StaleCarryUnobservable : Prop :=
  ∀ s t : State, agreeButCarry s t → carryUnread s →
    ∃ s' t', step s = .next s' ∧ step t = .next t' ∧ (s' = t' ∨ (agreeButCarry s' t' ∧ carryUnread s'))

/-- What the spec leaves unspecified after reset is never read before it is written (R40, R42, R44): two states that differ
in it alone step alike, with the same read values, and go on to differ in it alone. It makes log entry 1 harmless. For a
block with delay 0 and the echo enabled the agreement rests on both taking the same draws, which is the model's choice (log
entry 6), unsafe in such a comparison: R198 leaves the draws free. -/
def Obligations.UnspecifiedResetValuesUnobservable : Prop :=
  ∀ s t : State, agreeButUnspecified s t →
    ∃ s' t', step s = .next s' ∧ step t = .next t' ∧ agreeButUnspecified s' t'

/-! ### The engine's steps -/

/-- INIT_DONE (R283) computes HTAB by the recursion of R151 for every band, enters IDLE and changes nothing else. -/
def Obligations.InitDoneStoresImpulseResponses : Prop :=
  ∀ (s : State) (rest : List Event), s.phase = .init → engineTurn s rest →
    ∃ t, step s = .next t ∧ t.phase = .idle ∧
      (∀ b : Fin 10, let c := Config.coef[b]; let h := t.htab[b]
        h[0] = fmul c.G c.a0 ∧
        h[1] = fsum (fmul c.G c.b0) [fmul c.b1 h[0]] ∧
        h[2] = fsum (fmul c.G c.c0) [fmul c.b1 h[1], fmul c.c1 h[0]] ∧
        h[3] = fsum (fmul c.b1 h[2]) [fmul c.c1 h[1], fmul c.d1 h[0]] ∧
        h[4] = fsum (fmul c.G c.e0) [fmul c.b1 h[3], fmul c.c1 h[2], fmul c.d1 h[1], fmul c.e1 h[0]] ∧
        h[5] = fsum (fmul c.G c.f0)
          [fmul c.b1 h[4], fmul c.c1 h[3], fmul c.d1 h[2], fmul c.e1 h[1], fmul c.f1 h[0]] ∧
        h[6] = fsum (fmul c.G c.g0)
          [fmul c.b1 h[5], fmul c.c1 h[4], fmul c.d1 h[3], fmul c.e1 h[2], fmul c.f1 h[1], fmul c.g1 h[0]] ∧
        ∀ n : Fin 1018, h[n.val + 7] = fsum (fmul c.b1 h[n.val + 6])
          [fmul c.c1 h[n.val + 5], fmul c.d1 h[n.val + 4], fmul c.e1 h[n.val + 3], fmul c.f1 h[n.val + 2],
           fmul c.g1 h[n.val + 1]]) ∧
      t.sos = s.sos ∧ t.errors = s.errors ∧ sameRegistersBut (· = .status) s t ∧ sameMemory s t ∧ t.carry = s.carry ∧
      sameCapture s t ∧ t.draws = s.draws ∧ t.observed = s.observed ∧ t.pending = rest

/-- A band whose only non-zero coefficients are G and a0 has the impulse response G a0, then zeros; with G = a0 = 1.0 it is
1.0, then +0.0 (the example of R151). -/
def Obligations.FeedForwardOnlyGivesImpulse : Prop :=
  ∀ G a0 : F64, isFinite G = true → isFinite (fmul G a0) = true →
    let h := impulseResponse ⟨G, a0, posZero, posZero, posZero, posZero, posZero, posZero, posZero, posZero, posZero,
      posZero, posZero⟩
    h[0] = fmul G a0 ∧ (∀ k : Fin 1025, 1 ≤ k.val → isZero h[k] = true) ∧
      (G = one → a0 = one → h[0] = one ∧ ∀ k : Fin 1025, 1 ≤ k.val → h[k] = posZero)

/-- PROCESS_DONE with the echo disabled (R170, R173 to R175, R195, R232): OUT is the dry mix bit for bit, whatever the echo
amount, delay and mode. -/
def Obligations.ProcessDoneEchoDisabled : Prop :=
  ∀ (s : State) (rest : List Event), s.phase = .busy → engineTurn s rest → Memory.wf s.mem →
    s.snap.echoEnable = false →
    ∃ t dry, step s = .next t ∧ isDryMix s dry ∧ ∀ n : Fin 1024, sampleAt t.mem .output n.val = dry n.val

/-- PROCESS_DONE in Mode 0 (R191 to R193, R197): with the echo enabled, a mode other than 1 and a delay in 1..D_MAX, every
wet sample is R193's formula over the wet samples before it, the dry mix and the old histories. -/
def Obligations.ProcessDoneModeZero : Prop :=
  ∀ (s : State) (rest : List Event) (d : Nat), s.phase = .busy → engineTurn s rest → Memory.wf s.mem →
    s.snap.echoEnable = true → s.snap.echoMode.toInt ≠ 1 → s.snap.echoDelay.toInt = d → 1 ≤ d → d ≤ Config.dMax →
    ∃ t dry, step s = .next t ∧ isDryMix s dry ∧
      ∀ n : Fin 1024,
        let a := ascale s.snap.echoAmount.toInt
        let dryPrev := if d ≤ n.val then dry (n.val - d) else sampleAt s.mem .histDry (Config.dMax + n.val - d)
        let wetPrev := if d ≤ n.val then sampleAt t.mem .output (n.val - d)
          else sampleAt s.mem .histWet (Config.dMax + n.val - d)
        sampleAt t.mem .output n.val = fadd (fsub (fmul a wetPrev) (fmul a (dry n.val))) dryPrev

/-- PROCESS_DONE in Mode 1 (R191, R192, R194, R197): with the echo enabled, mode 1 and a delay in 1..D_MAX, every wet sample
is R194's formula. -/
def Obligations.ProcessDoneModeOne : Prop :=
  ∀ (s : State) (rest : List Event) (d : Nat), s.phase = .busy → engineTurn s rest → Memory.wf s.mem →
    s.snap.echoEnable = true → s.snap.echoMode.toInt = 1 → s.snap.echoDelay.toInt = d → 1 ≤ d → d ≤ Config.dMax →
    ∃ t dry, step s = .next t ∧ isDryMix s dry ∧
      ∀ n : Fin 1024,
        let a := ascale s.snap.echoAmount.toInt
        let wetPrev := if d ≤ n.val then sampleAt t.mem .output (n.val - d)
          else sampleAt s.mem .histWet (Config.dMax + n.val - d)
        sampleAt t.mem .output n.val = fadd (dry n.val) (fmul a wetPrev)

/-- PROCESS_DONE with delay 0 and the echo enabled (R198): wetPrev(n) is a draw, a fresh one for each n (log entry 6), and
dryPrev(n) is dry[n]; 1024 draws are taken. The statement holds for every value of the draws. -/
def Obligations.DelayZeroUsesDraws : Prop :=
  ∀ (s : State) (rest : List Event), s.phase = .busy → engineTurn s rest → Memory.wf s.mem →
    s.snap.echoEnable = true → s.snap.echoDelay = 0 →
    ∃ t dry, step s = .next t ∧ isDryMix s dry ∧ t.draws = s.draws + 1024 ∧
      ∀ n : Fin 1024,
        let a := ascale s.snap.echoAmount.toInt
        let wetPrev := Config.draw (s.draws + n.val)
        sampleAt t.mem .output n.val =
          if s.snap.echoMode.toInt = 1 then fadd (dry n.val) (fmul a wetPrev)
          else fadd (fsub (fmul a wetPrev) (fmul a (dry n.val))) (dry n.val)

/-- The history update (R196), on every block, echo enabled or not: the last D_MAX samples of the dry and the wet stream, the
most recent last. -/
def Obligations.HistoryHoldsLastSamples : Prop :=
  ∀ (s : State) (rest : List Event), s.phase = .busy → engineTurn s rest → Memory.wf s.mem →
    ∃ t dry, step s = .next t ∧ isDryMix s dry ∧
      ∀ i, i < Config.dMax →
        (i + 1024 < Config.dMax →
          sampleAt t.mem .histDry i = sampleAt s.mem .histDry (i + 1024) ∧
            sampleAt t.mem .histWet i = sampleAt s.mem .histWet (i + 1024)) ∧
        (Config.dMax ≤ i + 1024 →
          sampleAt t.mem .histDry i = dry (i + 1024 - Config.dMax) ∧
            sampleAt t.mem .histWet i = sampleAt t.mem .output (i + 1024 - Config.dMax))

/-- The rest of PROCESS_DONE (R25, R171, R232): every CARRY buffer receives IN, BLOCKS counts modulo 2^32, PHASE becomes
IDLE, draws are taken for delay 0 with the echo enabled only (their count is the model's, log entry 6), and nothing else
changes but OUT and the histories. -/
def Obligations.ProcessDoneCountsAndCarries : Prop :=
  ∀ (s : State) (rest : List Event), s.phase = .busy → engineTurn s rest → Memory.wf s.mem →
    ∃ t, step s = .next t ∧
      (∀ (b : Fin 10) (j : Fin 1024), (t.carry[b])[j] = sampleAt s.mem .input j.val) ∧
      t.blocks.toNat = (s.blocks.toNat + 1) % 2 ^ 32 ∧ t.phase = .idle ∧ t.sos = s.sos ∧ t.errors = s.errors ∧
      sameRegistersBut (fun r => r = .status ∨ r = .blocks) s t ∧ sameCapture s t ∧ t.htab = s.htab ∧
      t.observed = s.observed ∧ t.pending = rest ∧
      ((s.snap.echoEnable = false ∨ 0 < s.snap.echoDelay.toInt) → t.draws = s.draws) ∧
      ∀ a, inWindow Config.dMax .output a = false → inWindow Config.dMax .histDry a = false →
        inWindow Config.dMax .histWet a = false → readByte t.mem a = readByte s.mem a

/-- Zero gain (R233 (a)): with all band gains 0, or with the master gain 0 and every sum of the bands finite, and every value
NUM_CONV answers finite, a block with the echo disabled, or with an all-zero history and a delay in 1..D_MAX, is all zeros.
(R233 (a) does not ask for finite sums; without that 0 times an overflow is a NaN.) -/
def Obligations.ZeroGainGivesZeroBlock : Prop :=
  ∀ (s : State) (rest : List Event), s.phase = .busy → engineTurn s rest → Memory.wf s.mem →
    convolutionsFinite s →
    ((∀ b : Fin 10, s.snap.gain[b] = 0) ∨
      (s.snap.master = 0 ∧ ∀ n : Fin 1024, isFinite (bandSum (filteredBands Config.convolver.numConv s.snap s.htab
        s.carry s.sosUsed (inputBlock s.mem)) n) = true)) →
    (s.snap.echoEnable = false ∨
      ((∀ i, i < Config.dMax → isZero (sampleAt s.mem .histDry i) = true ∧ isZero (sampleAt s.mem .histWet i) = true) ∧
        1 ≤ s.snap.echoDelay.toInt ∧ s.snap.echoDelay.toInt ≤ (Config.dMax : Int))) →
    ∃ t, step s = .next t ∧ ∀ n : Fin 1024, isZero (sampleAt t.mem .output n.val) = true

/-- The first block of a stream, if silent, comes out silent (R137 P1, R170, R177): with finite taps, IN all zeros, the echo
disabled and SOS_USED = 1, OUT is all zeros whatever CARRY and the gains hold. -/
def Obligations.SilentFirstBlockIsSilent : Prop :=
  ∀ (s : State) (rest : List Event), s.phase = .busy → engineTurn s rest → Memory.wf s.mem → s.sosUsed = true →
    s.snap.echoEnable = false → (∀ b : Fin 10, tapsFinite s.htab[b]) →
    (∀ j : Fin 1024, isZero (sampleAt s.mem .input j.val) = true) →
    ∃ t, step s = .next t ∧ ∀ n : Fin 1024, isZero (sampleAt t.mem .output n.val) = true

/-- Overlap-add continuity (R176): the ideal value of a block, taken from the window of R170, is the linear convolution of
the stream with the truncated impulse response: tap k reaches k samples back, into the block before where k > m, and into
silence for the first block of a stream. -/
def Obligations.WindowConvolvesTheStream : Prop :=
  ∀ (h : Taps) (before now : Block) (m : Fin 1024),
    idealSample h (analysisWindow false before now) m =
        (∑ k : Fin 1025, value h[k] *
          (if k.val ≤ m.val then value (blockAt now (m.val - k.val))
           else value (blockAt before (1024 + m.val - k.val)))) ∧
      idealSample h (analysisWindow true before now) m =
        ∑ k : Fin 1025, (if k.val ≤ m.val then value h[k] * value (blockAt now (m.val - k.val)) else 0)

/-! ### The bus -/

/-- Every register of the address map reads as it stands, in every phase and without a side effect (R22 to R31, R66, R70); the
constants are those of R23 and R24. -/
def Obligations.RegisterReadsFollowTheMap : Prop :=
  ∀ s : State,
    busRead 4 0x00 s = (0x50445350, s) ∧ busRead 4 0x04 s = (statusWord s, s) ∧ busRead 4 0x0C s = (s.blocks, s) ∧
    busRead 4 0x10 s = (1024, s) ∧ busRead 4 0x14 s = (2048, s) ∧ busRead 4 0x18 s = (1025, s) ∧
    busRead 4 0x1C s = (10, s) ∧ busRead 4 0x20 s = (BitVec.ofNat 32 Config.dMax, s) ∧
    (∀ b : Fin 10, busRead 4 (BitVec.ofNat 32 (0x40 + 4 * b.val)) s = (s.cfg.gain[b], s)) ∧
    busRead 4 0x68 s = (s.cfg.master, s) ∧ busRead 4 0x6C s = (s.cfg.echoAmount, s) ∧
    busRead 4 0x70 s = (s.cfg.echoDelay, s) ∧ busRead 4 0x74 s = ((BitVec.ofBool s.cfg.echoEnable).zeroExtend 32, s) ∧
    busRead 4 0x78 s = (s.cfg.echoMode, s)

/-- A sample is read as two words, the low one at base + 8j and the high one at base + 8j + 4 (R61, R70), outside BUSY and
without a side effect. -/
def Obligations.SampleReadsGiveBothHalves : Prop :=
  ∀ (s : State) (w : SampleWindow) (j : Nat), s.phase ≠ .busy → j < windowLength Config.dMax w →
    busRead 4 (BitVec.ofNat 32 (windowBase w + 8 * j)) s = ((sampleAt s.mem w j).extractLsb' 0 32, s) ∧
      busRead 4 (BitVec.ofNat 32 (windowBase w + 8 * j + 4)) s = ((sampleAt s.mem w j).extractLsb' 32 32, s)

/-- A write to one half of a sample of IN or a history outside BUSY leaves the other half unchanged and every byte outside the
word (R71), and changes nothing but the window memory. -/
def Obligations.SampleWritesReplaceOneHalf : Prop :=
  ∀ (s : State) (w : SampleWindow) (j : Nat) (high : Bool) (v : Word), s.phase ≠ .busy → w ≠ .output →
    j < windowLength Config.dMax w → Memory.wf s.mem →
    let addr := windowBase w + 8 * j + (if high then 4 else 0)
    ∃ t, busWrite 4 (BitVec.ofNat 32 addr) v s = .next t ∧
      (sampleAt t.mem w j).extractLsb' 0 32 = (if high then (sampleAt s.mem w j).extractLsb' 0 32 else v) ∧
      (sampleAt t.mem w j).extractLsb' 32 32 = (if high then v else (sampleAt s.mem w j).extractLsb' 32 32) ∧
      (∀ a, a < addr ∨ addr + 4 ≤ a → readByte t.mem a = readByte s.mem a) ∧
      sameRegistersBut (fun _ => False) s t ∧ sameStatus s t ∧ sameTables s t ∧ sameCapture s t ∧ sameOutside s t

/-- R62: an access of another size than 4, or at an address that is no multiple of 4, raises ERR_BUS; a write changes no
other state, a read returns 0. -/
def Obligations.OnlyAlignedWordsAreAccessed : Prop :=
  ∀ (s : State) (size : Nat) (addr v : Word), (size ≠ 4 ∨ addr.toNat % 4 ≠ 0) →
    (∃ t, busRead size addr s = (0, t) ∧ onlyErrorSet .bus s t) ∧
      ∃ t, busWrite size addr v s = .next t ∧ onlyErrorSet .bus s t

/-- R67: an access to an address outside the map of R66 raises ERR_BUS; a write changes nothing else, a read returns 0. -/
def Obligations.UnmappedAccessesRefused : Prop :=
  ∀ (s : State) (addr v : Word),
    let a := addr.toNat
    ¬ a ≤ 0x20 → ¬ (0x40 ≤ a ∧ a ≤ 0x78) → ¬ (0x00010000 ≤ a ∧ a ≤ 0x00011FFF) →
    ¬ (0x00020000 ≤ a ∧ a ≤ 0x00021FFF) → ¬ (0x01000000 ≤ a ∧ a < 0x01000000 + 8 * Config.dMax) →
    ¬ (0x01800000 ≤ a ∧ a < 0x01800000 + 8 * Config.dMax) →
    (∃ t, busRead 4 addr s = (0, t) ∧ onlyErrorSet .bus s t) ∧
      ∃ t, busWrite 4 addr v s = .next t ∧ onlyErrorSet .bus s t

/-- R72, and R73 for OUT: a write to a read-only register or to OUT and a read of CMD raise ERR_BUS and have no other
effect, in every phase. -/
def Obligations.AccessRightsHold : Prop :=
  ∀ (s : State) (v : Word),
    (∀ r : Reg, ∃ t, busWrite 4 (BitVec.ofNat 32 (regAddr r)) v s = .next t ∧ onlyErrorSet .bus s t) ∧
      (∃ t, busRead 4 0x00000008 s = (0, t) ∧ onlyErrorSet .bus s t) ∧
      ∀ addr : Word, 0x00020000 ≤ addr.toNat → addr.toNat ≤ 0x00021FFF →
        ∃ t, busWrite 4 addr v s = .next t ∧ onlyErrorSet .bus s t

/-- R286: while BUSY every access to the IN, OUT or HIST windows raises ERR_BUS and has no effect: a write is lost and a read
returns 0 instead of a sample. -/
def Obligations.BusyWindowsRefused : Prop :=
  ∀ (s : State) (w : SampleWindow) (addr v : Word), s.phase = .busy → inWindow Config.dMax w addr.toNat = true →
    (∃ t, busRead 4 addr s = (0, t) ∧ onlyErrorSet .bus s t) ∧
      ∃ t, busWrite 4 addr v s = .next t ∧ onlyErrorSet .bus s t

/-- R64: a permitted read changes nothing and a refused one answers 0 and sets ERR_BUS alone; reading twice gives the same
value; writing a word twice to IN or a history is the same as once; two PROCESS commands are not the same as one. -/
def Obligations.SideEffectsAndIdempotency : Prop :=
  (∀ (s : State) (size : Nat) (addr : Word),
    ((busRead size addr s).2 = s ∨ ((busRead size addr s).1 = 0 ∧ onlyErrorSet .bus s (busRead size addr s).2)) ∧
      (busRead size addr (busRead size addr s).2).1 = (busRead size addr s).1) ∧
  (∀ (s : State) (w : SampleWindow) (addr v : Word), w ≠ .output → inWindow Config.dMax w addr.toNat = true →
    Memory.wf s.mem →
    ∃ t u, busWrite 4 addr v s = .next t ∧ busWrite 4 addr v t = .next u ∧
      sameMemory t u ∧ sameRegistersBut (fun _ => False) t u ∧ sameStatus t u ∧ sameTables t u ∧ sameCapture t u ∧
      sameOutside t u) ∧
  ∀ s : State, s.phase = .idle →
    ∃ t u, exec .process s = .next t ∧ exec .process t = .next u ∧ t.errors = s.errors ∧ u.errors.has .overrun = true

/-- What a host's read does as a step (R70, R293): its value is added to the observation, and nothing else happens but what
the read itself does. The observation as a field of State is the model's choice (log entry 4). -/
def Obligations.ReadsAreObserved : Prop :=
  ∀ (s : State) (size : Nat) (addr : Word) (rest : List Event), s.pending = .read size addr :: rest →
    ∃ t, step s = .next t ∧ t.observed = s.observed ++ [(busRead size addr s).1] ∧ t.pending = rest ∧
      t.mem = s.mem ∧ t.errors = (busRead size addr s).2.errors ∧ t.phase = s.phase ∧ t.sos = s.sos ∧
      sameRegistersBut (· = .status) s t ∧ sameTables s t ∧ sameCapture s t ∧ t.draws = s.draws

/-! ### Whole-machine rules -/

/-- STATUS bit by bit, and its error bits sticky (R22): READY, BUSY and SOS are views of state, reserved bits read as 0, no
step but a hardware reset clears an error bit, and no step sets more than one (R104). -/
def Obligations.StatusBitsAreViewsAndSticky : Prop :=
  readRegister .status State.reset = 0x00000004 ∧
    (∀ (s : State) (i : Nat), (readRegister .status s).getLsbD i =
      if i = 0 then decide (s.phase ≠ .init)
      else if i = 1 then decide (s.phase = .busy)
      else if i = 2 then s.sos
      else if i = 8 then s.errors.has .cmd
      else if i = 9 then s.errors.has .overrun
      else if i = 10 then s.errors.has .range
      else if i = 11 then s.errors.has .bus
      else if i = 12 then s.errors.has .notReady
      else false) ∧
    ∀ s t : State, step s = .next t → noReset s →
      (∀ b, s.errors.has b = true → t.errors.has b = true) ∧ ∃ b, ∀ c, c ≠ b → t.errors.has c = s.errors.has c

/-- BLOCKS, CARRY and OUT are written by PROCESS_DONE and by hardware reset only (R25, R45, R49, R51). -/
def Obligations.OnlyProcessDoneWritesResults : Prop :=
  ∀ s t : State, step s = .next t → noReset s → Memory.wf s.mem →
    (s.phase = .busy → ∀ rest, ¬ engineTurn s rest) →
    t.blocks = s.blocks ∧ t.carry = s.carry ∧ ∀ j, j < 1024 → sampleAt t.mem .output j = sampleAt s.mem .output j

/-- The configuration registers, SOS, SNAP and SOS_USED are written through CMD and by hardware reset only (R26 to R31, R40
to R42, R51, R72). -/
def Obligations.OnlyCommandsWriteConfiguration : Prop :=
  ∀ s t : State, step s = .next t → noReset s → noCommand s →
    t.cfg = s.cfg ∧ t.sos = s.sos ∧ t.snap = s.snap ∧ t.sosUsed = s.sosUsed

/-- R155: no command, bus access or PROCESS writes HTAB; only INIT_DONE after a hardware reset recomputes it, and to the same
values every time. -/
def Obligations.TableWrittenByInitDoneOnly : Prop :=
  (∀ s t : State, step s = .next t → noReset s → t.htab ≠ s.htab →
      s.phase = .init ∧ ∃ rest, engineTurn s rest) ∧
    ∀ s s' t t' : State, s.phase = .init → s'.phase = .init → (∃ rest, engineTurn s rest) →
      (∃ rest, engineTurn s' rest) → step s = .next t → step s' = .next t' → t.htab = t'.htab

/-- While a block is in flight no step but a hardware reset changes IN, and the engine never writes it (R48, R73, R230). -/
def Obligations.InputLockedWhileBusy : Prop :=
  ∀ s t : State, step s = .next t → noReset s → Memory.wf s.mem →
    (s.phase = .busy ∨ ∃ rest, engineTurn s rest) →
    ∀ j, j < 1024 → sampleAt t.mem .input j = sampleAt s.mem .input j

/-! ### Invariants -/

/-- Every step keeps the window memory canonical and inside the windows (the model's memory form, log entry 10). -/
def Obligations.MemoryStaysLegal : Prop := ∀ s t : State, memoryLegal s → step s = .next t → memoryLegal t

/-- Every step keeps ECHO_DELAY, and the copy of it in SNAP that a block uses, in 0..D_MAX (R29, R190, R214). For SNAP after
a hardware reset it holds by the zeros the model gives there, where the spec gives none (log entry 1). -/
def Obligations.DelaysStayLegal : Prop := ∀ s t : State, delaysLegal s → step s = .next t → delaysLegal t

/-- Every step keeps the ten carry-over buffers equal (R46). -/
def Obligations.CarriesStayEqual : Prop := ∀ s t : State, carriesEqual s → step s = .next t → carriesEqual t

/-- Every step keeps HTAB at the table of R151 from INIT_DONE on (R44, R155). -/
def Obligations.TableStaysFixed : Prop := ∀ s t : State, tableFixed s → step s = .next t → tableFixed t

/-- Every step keeps the integers that are converted to binary64, and their registers, at magnitude 2^23 or less (R101,
R133). For SNAP after a hardware reset it holds by the zeros the model gives there, where the spec gives none (log entry 1). -/
def Obligations.IntegersStayNarrow : Prop := ∀ s t : State, integersNarrow s → step s = .next t → integersNarrow t

/-- The state after reset meets the invariants. What delaysLegal and integersNarrow say of SNAP holds by the zeros the model
gives it (log entry 1): R40 and R52 leave SNAP unspecified after reset. -/
def Obligations.ResetMeetsInvariants : Prop :=
  memoryLegal State.reset ∧ delaysLegal State.reset ∧ carriesEqual State.reset ∧ tableFixed State.reset ∧
    integersNarrow State.reset

/-! ### Arithmetic -/

/-- fadd, fsub, fmul and fdiv round the exact result once, to nearest, ties to even, with gradual underflow (R131). -/
def Obligations.ArithmeticRoundsToNearestEven : Prop :=
  ∀ x y : F64, isFinite x = true → isFinite y = true →
    (value x + value y ≠ 0 → roundsTo (value x + value y) (fadd x y)) ∧
      (value x - value y ≠ 0 → roundsTo (value x - value y) (fsub x y)) ∧
      (value x * value y ≠ 0 → roundsTo (value x * value y) (fmul x y)) ∧
      (value x ≠ 0 → value y ≠ 0 → roundsTo (value x / value y) (fdiv x y))

/-- cvt is exact below 2^53 (R133). -/
def Obligations.CvtIsExact : Prop :=
  ∀ i : Int, i.natAbs < 2 ^ 53 → isFinite (cvt i) = true ∧ value (cvt i) = (i : ℚ)

/-- A NaN that arithmetic returns is the canonical one, whatever the inputs (R132), and the operations return one for a NaN
input and in the invalid cases of IEEE 754 (log entry 11): zero times infinity, infinity over infinity, zero over zero, the
sum of two infinities of different signs and the difference of two of the same sign. -/
def Obligations.NaNResultsAreCanonical : Prop :=
  ∀ x y : F64,
    (∀ f ∈ [fadd, fsub, fmul, fdiv], (isNaN (f x y) = true → f x y = canonicalNaN) ∧
      ((isNaN x = true ∨ isNaN y = true) → f x y = canonicalNaN)) ∧
    (isZero x = true → isInf y = true → fmul x y = canonicalNaN ∧ fmul y x = canonicalNaN) ∧
    (isInf x = true → isInf y = true → fdiv x y = canonicalNaN ∧
      fadd x y = (if signBit x = signBit y then x else canonicalNaN) ∧
      fsub x y = (if signBit x = signBit y then canonicalNaN else x)) ∧
    (isZero x = true → isZero y = true → fdiv x y = canonicalNaN)

/-- Zero and infinite results and their signs (IEEE 754 to nearest, R131, log entry 11). An exact sum of zero is +0.0 but
for two negative zeros, an exact difference of zero is +0.0 but for -0.0 minus +0.0; a zero factor, and a zero over a
non-zero number, give a zero with the sign of the product; a non-zero finite number over a zero is infinite. With an infinity
z beside the finite x: a sum or difference is infinite with the sign z has in it, a product with a non-zero number and a
quotient over x are infinite, x over z is a zero; the product of two infinities is infinite. -/
def Obligations.ZeroResultsHaveTheirSigns : Prop :=
  ∀ x y : F64, isFinite x = true → isFinite y = true →
    (value x + value y = 0 → fadd x y = (if x = negZero ∧ y = negZero then negZero else posZero)) ∧
      (value x - value y = 0 → fsub x y = (if x = negZero ∧ y = posZero then negZero else posZero)) ∧
      (value x * value y = 0 → fmul x y = (if signBit x = signBit y then posZero else negZero)) ∧
      (value x = 0 → value y ≠ 0 → fdiv x y = (if signBit x = signBit y then posZero else negZero)) ∧
      (value y = 0 → value x ≠ 0 → isInf (fdiv x y) = true ∧ signBit (fdiv x y) = (signBit x != signBit y)) ∧
      ∀ z : F64, isInf z = true →
        fadd x z = z ∧ fadd z x = z ∧ fsub z x = z ∧
          (isInf (fsub x z) = true ∧ signBit (fsub x z) = !signBit z) ∧
          (value x ≠ 0 → fmul x z = fmul z x ∧ isInf (fmul x z) = true ∧ signBit (fmul x z) = (signBit x != signBit z)) ∧
          (isInf (fdiv z x) = true ∧ signBit (fdiv z x) = (signBit z != signBit x)) ∧
          fdiv x z = (if signBit x = signBit z then posZero else negZero) ∧
          ∀ z' : F64, isInf z' = true → isInf (fmul z z') = true ∧ signBit (fmul z z') = (signBit z != signBit z')

/-- The scale constants (R134, R135): C_002 is 0.02 rounded to binary64, C_100 is 100, and the selected gains and amounts have
the values of the rules. -/
def Obligations.ScaleConstants : Prop :=
  roundsTo (1 / 50) c002 ∧ value c100 = 100 ∧ gscale 0 = 0x0000000000000000 ∧ gscale 1 = 0x3F947AE147AE147B ∧
    gscale (-1) = 0xBF947AE147AE147B ∧ gscale 25 = 0x3FE0000000000000 ∧ gscale 50 = 0x3FF0000000000000 ∧
    gscale 100 = 0x4000000000000000 ∧ ascale 0 = posZero ∧ ascale 25 = 0x3FD0000000000000 ∧
    ascale 50 = 0x3FE0000000000000 ∧ ascale 100 = 0x3FF0000000000000 ∧ ascale 10 = 0x3FB999999999999A ∧
    ascale 30 = 0x3FD3333333333333 ∧ ascale 1 = 0x3F847AE147AE147B ∧ ascale (-50) = 0xBFE0000000000000
end

