-- ==== Sys2Proof/Laws/State.lean ====
section
/-! SUPPORT. What each named update of the state leaves in each field: one lemma per field per update, so that no later
proof unfolds a record update. -/

namespace Sys2Proof.Laws

open Sys2Proof.Machine

@[simp] theorem raiseError_phase (b : ErrorBit) (s : State) : (raiseError b s).phase = s.phase := rfl
@[simp] theorem raiseError_errors (b : ErrorBit) (s : State) : (raiseError b s).errors = s.errors.set b := rfl
@[simp] theorem raiseError_blocks (b : ErrorBit) (s : State) : (raiseError b s).blocks = s.blocks := rfl
@[simp] theorem raiseError_cfg (b : ErrorBit) (s : State) : (raiseError b s).cfg = s.cfg := rfl
@[simp] theorem raiseError_snap (b : ErrorBit) (s : State) : (raiseError b s).snap = s.snap := rfl
@[simp] theorem raiseError_sos (b : ErrorBit) (s : State) : (raiseError b s).sos = s.sos := rfl
@[simp] theorem raiseError_sosUsed (b : ErrorBit) (s : State) : (raiseError b s).sosUsed = s.sosUsed := rfl
@[simp] theorem raiseError_htab (b : ErrorBit) (s : State) : (raiseError b s).htab = s.htab := rfl
@[simp] theorem raiseError_carry (b : ErrorBit) (s : State) : (raiseError b s).carry = s.carry := rfl
@[simp] theorem raiseError_mem (b : ErrorBit) (s : State) : (raiseError b s).mem = s.mem := rfl
@[simp] theorem raiseError_draws (b : ErrorBit) (s : State) : (raiseError b s).draws = s.draws := rfl
@[simp] theorem raiseError_pending (b : ErrorBit) (s : State) : (raiseError b s).pending = s.pending := rfl
@[simp] theorem raiseError_observed (b : ErrorBit) (s : State) : (raiseError b s).observed = s.observed := rfl

@[simp] theorem withSettings_phase (c : Settings) (s : State) : (withSettings c s).phase = s.phase := rfl
@[simp] theorem withSettings_errors (c : Settings) (s : State) : (withSettings c s).errors = s.errors := rfl
@[simp] theorem withSettings_blocks (c : Settings) (s : State) : (withSettings c s).blocks = s.blocks := rfl
@[simp] theorem withSettings_cfg (c : Settings) (s : State) : (withSettings c s).cfg = c := rfl
@[simp] theorem withSettings_snap (c : Settings) (s : State) : (withSettings c s).snap = s.snap := rfl
@[simp] theorem withSettings_sos (c : Settings) (s : State) : (withSettings c s).sos = s.sos := rfl
@[simp] theorem withSettings_sosUsed (c : Settings) (s : State) : (withSettings c s).sosUsed = s.sosUsed := rfl
@[simp] theorem withSettings_htab (c : Settings) (s : State) : (withSettings c s).htab = s.htab := rfl
@[simp] theorem withSettings_carry (c : Settings) (s : State) : (withSettings c s).carry = s.carry := rfl
@[simp] theorem withSettings_mem (c : Settings) (s : State) : (withSettings c s).mem = s.mem := rfl
@[simp] theorem withSettings_draws (c : Settings) (s : State) : (withSettings c s).draws = s.draws := rfl
@[simp] theorem withSettings_pending (c : Settings) (s : State) : (withSettings c s).pending = s.pending := rfl
@[simp] theorem withSettings_observed (c : Settings) (s : State) : (withSettings c s).observed = s.observed := rfl

@[simp] theorem acceptBlock_phase (s : State) : (acceptBlock s).phase = .busy := rfl
@[simp] theorem acceptBlock_errors (s : State) : (acceptBlock s).errors = s.errors := rfl
@[simp] theorem acceptBlock_blocks (s : State) : (acceptBlock s).blocks = s.blocks := rfl
@[simp] theorem acceptBlock_cfg (s : State) : (acceptBlock s).cfg = s.cfg := rfl
@[simp] theorem acceptBlock_snap (s : State) : (acceptBlock s).snap = s.cfg := rfl
@[simp] theorem acceptBlock_sos (s : State) : (acceptBlock s).sos = false := rfl
@[simp] theorem acceptBlock_sosUsed (s : State) : (acceptBlock s).sosUsed = s.sos := rfl
@[simp] theorem acceptBlock_htab (s : State) : (acceptBlock s).htab = s.htab := rfl
@[simp] theorem acceptBlock_carry (s : State) : (acceptBlock s).carry = s.carry := rfl
@[simp] theorem acceptBlock_mem (s : State) : (acceptBlock s).mem = s.mem := rfl
@[simp] theorem acceptBlock_draws (s : State) : (acceptBlock s).draws = s.draws := rfl
@[simp] theorem acceptBlock_pending (s : State) : (acceptBlock s).pending = s.pending := rfl
@[simp] theorem acceptBlock_observed (s : State) : (acceptBlock s).observed = s.observed := rfl

@[simp] theorem restartStream_phase (s : State) : (restartStream s).phase = s.phase := rfl
@[simp] theorem restartStream_errors (s : State) : (restartStream s).errors = s.errors := rfl
@[simp] theorem restartStream_blocks (s : State) : (restartStream s).blocks = s.blocks := rfl
@[simp] theorem restartStream_cfg (s : State) : (restartStream s).cfg = s.cfg := rfl
@[simp] theorem restartStream_snap (s : State) : (restartStream s).snap = s.snap := rfl
@[simp] theorem restartStream_sos (s : State) : (restartStream s).sos = true := rfl
@[simp] theorem restartStream_sosUsed (s : State) : (restartStream s).sosUsed = s.sosUsed := rfl
@[simp] theorem restartStream_htab (s : State) : (restartStream s).htab = s.htab := rfl
@[simp] theorem restartStream_carry (s : State) : (restartStream s).carry = s.carry := rfl
@[simp] theorem restartStream_mem (s : State) : (restartStream s).mem = s.mem := rfl
@[simp] theorem restartStream_draws (s : State) : (restartStream s).draws = s.draws := rfl
@[simp] theorem restartStream_pending (s : State) : (restartStream s).pending = s.pending := rfl
@[simp] theorem restartStream_observed (s : State) : (restartStream s).observed = s.observed := rfl

@[simp] theorem withMemory_phase (m : Memory) (s : State) : (withMemory m s).phase = s.phase := rfl
@[simp] theorem withMemory_errors (m : Memory) (s : State) : (withMemory m s).errors = s.errors := rfl
@[simp] theorem withMemory_blocks (m : Memory) (s : State) : (withMemory m s).blocks = s.blocks := rfl
@[simp] theorem withMemory_cfg (m : Memory) (s : State) : (withMemory m s).cfg = s.cfg := rfl
@[simp] theorem withMemory_snap (m : Memory) (s : State) : (withMemory m s).snap = s.snap := rfl
@[simp] theorem withMemory_sos (m : Memory) (s : State) : (withMemory m s).sos = s.sos := rfl
@[simp] theorem withMemory_sosUsed (m : Memory) (s : State) : (withMemory m s).sosUsed = s.sosUsed := rfl
@[simp] theorem withMemory_htab (m : Memory) (s : State) : (withMemory m s).htab = s.htab := rfl
@[simp] theorem withMemory_carry (m : Memory) (s : State) : (withMemory m s).carry = s.carry := rfl
@[simp] theorem withMemory_mem (m : Memory) (s : State) : (withMemory m s).mem = m := rfl
@[simp] theorem withMemory_draws (m : Memory) (s : State) : (withMemory m s).draws = s.draws := rfl
@[simp] theorem withMemory_pending (m : Memory) (s : State) : (withMemory m s).pending = s.pending := rfl
@[simp] theorem withMemory_observed (m : Memory) (s : State) : (withMemory m s).observed = s.observed := rfl

@[simp] theorem withPending_phase (events : List Event) (s : State) : (withPending events s).phase = s.phase := rfl
@[simp] theorem withPending_errors (events : List Event) (s : State) : (withPending events s).errors = s.errors := rfl
@[simp] theorem withPending_blocks (events : List Event) (s : State) : (withPending events s).blocks = s.blocks := rfl
@[simp] theorem withPending_cfg (events : List Event) (s : State) : (withPending events s).cfg = s.cfg := rfl
@[simp] theorem withPending_snap (events : List Event) (s : State) : (withPending events s).snap = s.snap := rfl
@[simp] theorem withPending_sos (events : List Event) (s : State) : (withPending events s).sos = s.sos := rfl
@[simp] theorem withPending_sosUsed (events : List Event) (s : State) : (withPending events s).sosUsed = s.sosUsed := rfl
@[simp] theorem withPending_htab (events : List Event) (s : State) : (withPending events s).htab = s.htab := rfl
@[simp] theorem withPending_carry (events : List Event) (s : State) : (withPending events s).carry = s.carry := rfl
@[simp] theorem withPending_mem (events : List Event) (s : State) : (withPending events s).mem = s.mem := rfl
@[simp] theorem withPending_draws (events : List Event) (s : State) : (withPending events s).draws = s.draws := rfl
@[simp] theorem withPending_pending (events : List Event) (s : State) : (withPending events s).pending = events := rfl
@[simp] theorem withPending_observed (events : List Event) (s : State) : (withPending events s).observed = s.observed := rfl

@[simp] theorem initDone_phase (s : State) : (initDone s).phase = .idle := rfl
@[simp] theorem initDone_errors (s : State) : (initDone s).errors = s.errors := rfl
@[simp] theorem initDone_blocks (s : State) : (initDone s).blocks = s.blocks := rfl
@[simp] theorem initDone_cfg (s : State) : (initDone s).cfg = s.cfg := rfl
@[simp] theorem initDone_snap (s : State) : (initDone s).snap = s.snap := rfl
@[simp] theorem initDone_sos (s : State) : (initDone s).sos = s.sos := rfl
@[simp] theorem initDone_sosUsed (s : State) : (initDone s).sosUsed = s.sosUsed := rfl
@[simp] theorem initDone_htab (s : State) : (initDone s).htab = filterTable Config.coef := rfl
@[simp] theorem initDone_carry (s : State) : (initDone s).carry = s.carry := rfl
@[simp] theorem initDone_mem (s : State) : (initDone s).mem = s.mem := rfl
@[simp] theorem initDone_draws (s : State) : (initDone s).draws = s.draws := rfl
@[simp] theorem initDone_pending (s : State) : (initDone s).pending = s.pending := rfl
@[simp] theorem initDone_observed (s : State) : (initDone s).observed = s.observed := rfl

@[simp] theorem processDone_phase (s : State) : (processDone s).phase = .idle := rfl
@[simp] theorem processDone_errors (s : State) : (processDone s).errors = s.errors := rfl
@[simp] theorem processDone_blocks (s : State) : (processDone s).blocks = s.blocks + 1 := rfl
@[simp] theorem processDone_cfg (s : State) : (processDone s).cfg = s.cfg := rfl
@[simp] theorem processDone_snap (s : State) : (processDone s).snap = s.snap := rfl
@[simp] theorem processDone_sos (s : State) : (processDone s).sos = s.sos := rfl
@[simp] theorem processDone_sosUsed (s : State) : (processDone s).sosUsed = s.sosUsed := rfl
@[simp] theorem processDone_htab (s : State) : (processDone s).htab = s.htab := rfl
@[simp] theorem processDone_carry (s : State) : (processDone s).carry = Vector.replicate 10 (inputBlock s.mem) := rfl
@[simp] theorem processDone_mem (s : State) : (processDone s).mem = storeBlock s.mem (dryBlock s) (wetBlock s (dryBlock s)) := rfl
@[simp] theorem processDone_draws (s : State) : (processDone s).draws = s.draws + drawsTaken s.snap := rfl
@[simp] theorem processDone_pending (s : State) : (processDone s).pending = s.pending := rfl
@[simp] theorem processDone_observed (s : State) : (processDone s).observed = s.observed := rfl

@[simp] theorem hardwareReset_phase (s : State) : (hardwareReset s).phase = State.reset.phase := rfl
@[simp] theorem hardwareReset_errors (s : State) : (hardwareReset s).errors = State.reset.errors := rfl
@[simp] theorem hardwareReset_blocks (s : State) : (hardwareReset s).blocks = State.reset.blocks := rfl
@[simp] theorem hardwareReset_cfg (s : State) : (hardwareReset s).cfg = State.reset.cfg := rfl
@[simp] theorem hardwareReset_snap (s : State) : (hardwareReset s).snap = State.reset.snap := rfl
@[simp] theorem hardwareReset_sos (s : State) : (hardwareReset s).sos = State.reset.sos := rfl
@[simp] theorem hardwareReset_sosUsed (s : State) : (hardwareReset s).sosUsed = State.reset.sosUsed := rfl
@[simp] theorem hardwareReset_htab (s : State) : (hardwareReset s).htab = State.reset.htab := rfl
@[simp] theorem hardwareReset_carry (s : State) : (hardwareReset s).carry = State.reset.carry := rfl
@[simp] theorem hardwareReset_mem (s : State) : (hardwareReset s).mem = State.reset.mem := rfl
@[simp] theorem hardwareReset_draws (s : State) : (hardwareReset s).draws = s.draws := rfl
@[simp] theorem hardwareReset_pending (s : State) : (hardwareReset s).pending = s.pending := rfl
@[simp] theorem hardwareReset_observed (s : State) : (hardwareReset s).observed = s.observed := rfl

@[simp] theorem observeRead_observed (size : Nat) (addr : Word) (s : State) :
    (observeRead size addr s).observed = s.observed ++ [(busRead size addr s).1] := rfl

@[simp] theorem engineStep_pending (s : State) : (engineStep s).pending = s.pending := by
  unfold engineStep; split <;> rfl

@[simp] theorem engineStep_observed (s : State) : (engineStep s).observed = s.observed := by
  unfold engineStep; split <;> rfl

/-- An engine turn ends in IDLE, whatever the phase (R283, R232). -/
@[simp] theorem engineStep_phase (s : State) : (engineStep s).phase = .idle := by
  unfold engineStep; split <;> simp_all

/-- Raising a bit sets that bit and no other (R250). -/
theorem has_set (b c : ErrorBit) (e : ErrorBits) : (e.set b).has c = (decide (c = b) || e.has c) := by
  cases b <;> cases c <;> simp [ErrorBits.set, ErrorBits.has]

theorem readRegister_raiseError (b : ErrorBit) (s : State) (r : Reg) (h : r ≠ .status) :
    readRegister r (raiseError b s) = readRegister r s := by
  cases r <;> first | rfl | exact absurd rfl h

end Sys2Proof.Laws
end

