-- ==== Sys2Proof/Laws/Commands.lean ====
section
/-! SUPPORT. What a command can do: one lemma says every way exec can answer (R104, R210, R230, R235, R237). -/

namespace Sys2Proof.Laws

open Sys2Proof.Machine

variable {s t : State}

/-- A change of the configuration registers that a SET command makes: it keeps ECHO_DELAY in 0..D_MAX (R29), and stores a
24-bit immediate (R101). -/
structure SetEffect (c c' : Settings) : Prop where
  delay : c'.echoDelay = c.echoDelay ∨ ∃ imm, delayInRange Config.dMax imm = true ∧ c'.echoDelay = signedImm imm
  master : c'.master = c.master ∨ ∃ imm, c'.master = signedImm imm
  amount : c'.echoAmount = c.echoAmount ∨ ∃ imm, c'.echoAmount = signedImm imm
  gain : ∀ b : Fin 10, c'.gain[b] = c.gain[b] ∨ ∃ imm, c'.gain[b] = signedImm imm

theorem unlessInit_init (f : State → State) (h : s.phase = .init) :
    unlessInit f s = .next (raiseError .notReady s) := if_pos h

theorem unlessInit_ready (f : State → State) (h : s.phase ≠ .init) : unlessInit f s = .next (f s) := if_neg h

/-- Every way a command answers: nothing, one error bit, a SET's new configuration, an accepted block, or SOS set. -/
inductive CommandEffect (i : Instr) (s : State) : State → Prop where
  | unchanged : CommandEffect i s s
  | error (b : ErrorBit) : CommandEffect i s (raiseError b s)
  | set (c : Settings) (ready : s.phase ≠ .init) (h : SetEffect s.cfg c) : CommandEffect i s (withSettings c s)
  | accept (h : i = .process) (idle : s.phase = .idle) : CommandEffect i s (acceptBlock s)
  | restart (h : i = .resetStream) (ready : s.phase ≠ .init) : CommandEffect i s (restartStream s)

/-- A command always answers a next state, and what that state is. -/
theorem exec_effect (i : Instr) (s : State) : ∃ t, exec i s = .next t ∧ CommandEffect i s t := by
  have ready : ∀ (f : State → State), (s.phase ≠ .init → CommandEffect i s (f s)) →
      ∃ t, unlessInit f s = .next t ∧ CommandEffect i s t := fun f hf => by
    by_cases h : s.phase = .init
    · exact ⟨_, unlessInit_init f h, .error _⟩
    · exact ⟨_, unlessInit_ready f h, hf h⟩
  cases i with
  | nop => exact ⟨s, rfl, .unchanged⟩
  | setBandGain band imm =>
    simp only [exec, execSetBandGain]
    split
    · rename_i hb
      refine ready _ fun h => .set _ h ⟨.inl rfl, .inl rfl, .inl rfl, fun b => ?_⟩
      simp only [Fin.getElem_fin, Vector.getElem_set]
      split
      · exact .inr ⟨imm, rfl⟩
      · exact .inl rfl
    · exact ⟨_, rfl, .error _⟩
  | setMasterGain imm => exact ready _ fun h => .set _ h ⟨.inl rfl, .inr ⟨imm, rfl⟩, .inl rfl, fun _ => .inl rfl⟩
  | setEchoAmount imm => exact ready _ fun h => .set _ h ⟨.inl rfl, .inl rfl, .inr ⟨imm, rfl⟩, fun _ => .inl rfl⟩
  | setEchoDelay imm =>
    refine ready (setDelay Config.dMax imm) fun h => ?_
    unfold setDelay
    split
    · exact .set _ h ⟨.inr ⟨imm, ‹_›, rfl⟩, .inl rfl, .inl rfl, fun _ => .inl rfl⟩
    · exact .error _
  | setEchoEnable e => exact ready _ fun h => .set _ h ⟨.inl rfl, .inl rfl, .inl rfl, fun _ => .inl rfl⟩
  | setEchoMode imm => exact ready _ fun h => .set _ h ⟨.inl rfl, .inl rfl, .inl rfl, fun _ => .inl rfl⟩
  | process =>
    refine ready processBlock fun h => ?_
    unfold processBlock
    split
    · exact .error _
    · refine .accept rfl ?_
      cases hp : s.phase <;> simp_all
  | resetStream => exact ready restartStream fun h => .restart rfl h

end Sys2Proof.Laws
end

