-- ==== Sys2Proof/Laws/Memory.lean ====
section
/-! SUPPORT. Laws of the window memory: a read after a write gives what was written, a write leaves every other byte alone,
and every write keeps the canonical form. -/

namespace Sys2Proof.Laws

open Sys2Proof.Machine

variable {m : Memory}

theorem wf_nil : Memory.wf [] := by simp [Memory.wf]

theorem wf_tail {c : Host.Cell} (h : Memory.wf (c :: m)) : Memory.wf m :=
  ⟨(List.pairwise_cons.mp h.1).2, fun d hd => h.2 d (List.mem_cons_of_mem _ hd)⟩

theorem lt_of_wf_cons {c d : Host.Cell} (h : Memory.wf (c :: m)) (hd : d ∈ m) : c.1 < d.1 :=
  (List.pairwise_cons.mp h.1).1 d hd

theorem readByte_of_below {a : Nat} (h : ∀ c ∈ m, a < c.1) : readByte m a = 0 := by
  cases m with
  | nil => rfl
  | cons c rest => simp [readByte, h c (by simp)]

theorem mem_writeByte {a : Nat} {b : Byte} {c : Host.Cell} (h : c ∈ writeByte m a b) : c = (a, b) ∧ b ≠ 0 ∨ c ∈ m := by
  induction m with
  | nil =>
    simp only [writeByte] at h
    split at h <;> simp_all
  | cons d rest ih =>
    simp only [writeByte] at h
    split at h
    · split at h
      · exact .inr h
      · rcases List.mem_cons.mp h with h | h
        · exact .inl ⟨h, ‹_›⟩
        · exact .inr h
    · split at h
      · split at h
        · exact .inr (List.mem_cons_of_mem _ h)
        · rcases List.mem_cons.mp h with h | h
          · exact .inl ⟨h, ‹_›⟩
          · exact .inr (List.mem_cons_of_mem _ h)
      · rcases List.mem_cons.mp h with h | h
        · exact .inr (h ▸ List.mem_cons_self)
        · exact (ih h).imp_right (List.mem_cons_of_mem _)

theorem writeByte_wf (h : Memory.wf m) (a : Nat) (b : Byte) : Memory.wf (writeByte m a b) := by
  refine ⟨?_, fun c hc => ?_⟩
  · induction m with
    | nil => simp only [writeByte]; split <;> simp
    | cons d rest ih =>
      have hr := (ih (wf_tail h))
      have hd := List.pairwise_cons.mp h.1
      simp only [writeByte]
      split
      · rename_i hlt
        split
        · exact h.1
        · refine List.pairwise_cons.mpr ⟨fun c hc => ?_, h.1⟩
          rcases List.mem_cons.mp hc with rfl | hc
          · exact hlt
          · exact hlt.trans (hd.1 c hc)
      · split
        · rename_i heq
          split
          · exact hd.2
          · exact List.pairwise_cons.mpr ⟨fun c hc => heq ▸ hd.1 c hc, hd.2⟩
        · refine List.pairwise_cons.mpr ⟨fun c hc => ?_, hr⟩
          rcases mem_writeByte hc with ⟨rfl, -⟩ | hc
          · show d.1 < a
            omega
          · exact hd.1 c hc
  · rcases mem_writeByte hc with ⟨rfl, hb⟩ | hc
    · exact hb
    · exact h.2 c hc

/-- Read after write, byte by byte. -/
theorem readByte_writeByte (h : Memory.wf m) (a c : Nat) (b : Byte) :
    readByte (writeByte m a b) c = if c = a then b else readByte m c := by
  induction m with
  | nil =>
    simp only [writeByte]
    by_cases hb : b = 0
    · simp [hb, readByte]
    · simp only [hb, if_false, readByte]
      split <;> rename_i h1
      · rw [if_neg (by omega)]
      · rfl
  | cons d rest ih =>
    obtain ⟨k, v⟩ := d
    have hrest := ih (wf_tail h)
    have hbelow : ∀ x, x ≤ k → readByte rest x = 0 := fun x hx =>
      readByte_of_below fun e he => lt_of_le_of_lt hx (lt_of_wf_cons h he)
    simp only [writeByte]
    split
    · rename_i hak
      by_cases hb : b = 0
      · subst hb
        simp only [if_true]
        split
        · rename_i hca
          subst hca
          simp [readByte, hak]
        · rfl
      · simp only [hb, if_false, readByte]
        by_cases h1 : c < a
        · simp [h1, h1.trans hak, Nat.ne_of_lt h1]
        · by_cases h2 : c = a
          · simp [h2]
          · simp [h1, h2]
    · split
      · rename_i hna heq
        subst heq
        by_cases hb : b = 0
        · subst hb
          simp only [if_true]
          split
          · rename_i hca
            exact hbelow c (by omega)
          · rename_i hca
            simp only [readByte, hca, if_false]
            split
            · exact hbelow c (by omega)
            · rfl
        · simp only [hb, if_false, readByte]
          by_cases h1 : c < a
          · simp [h1, Nat.ne_of_lt h1]
          · by_cases h2 : c = a
            · simp [h2]
            · simp [h1, h2]
      · rename_i hna hne
        simp only [readByte, hrest]
        by_cases h1 : c < k
        · rw [if_pos h1, if_pos h1, if_neg (by omega)]
        · rw [if_neg h1, if_neg h1]
          by_cases h2 : c = k
          · rw [if_pos h2, if_pos h2, if_neg (by omega)]
          · rw [if_neg h2, if_neg h2]

theorem writeWord_wf (h : Memory.wf m) (a : Nat) (v : Word) : Memory.wf (writeWord m a v) :=
  writeByte_wf (writeByte_wf (writeByte_wf (writeByte_wf h _ _) _ _) _ _) _ _

/-- The four bytes of a word written, and every other byte as before (R61). -/
theorem readByte_writeWord (h : Memory.wf m) (a c : Nat) (v : Word) :
    readByte (writeWord m a v) c =
      if c = a + 3 then v.extractLsb' 24 8 else if c = a + 2 then v.extractLsb' 16 8
      else if c = a + 1 then v.extractLsb' 8 8 else if c = a then v.extractLsb' 0 8 else readByte m c := by
  have h0 := writeByte_wf h a (v.extractLsb' 0 8)
  have h1 := writeByte_wf h0 (a + 1) (v.extractLsb' 8 8)
  have h2 := writeByte_wf h1 (a + 2) (v.extractLsb' 16 8)
  simp only [writeWord, readByte_writeByte h2, readByte_writeByte h1, readByte_writeByte h0, readByte_writeByte h]

theorem readByte_writeWord_other (h : Memory.wf m) {a c : Nat} (v : Word) (hc : c < a ∨ a + 4 ≤ c) :
    readByte (writeWord m a v) c = readByte m c := by
  rw [readByte_writeWord h, if_neg (by omega), if_neg (by omega), if_neg (by omega), if_neg (by omega)]

/-- A word is its four bytes, the lowest first (R61). -/
theorem word_of_bytes (v : Word) :
    v.extractLsb' 24 8 ++ v.extractLsb' 16 8 ++ v.extractLsb' 8 8 ++ v.extractLsb' 0 8 = v := by
  apply BitVec.eq_of_getLsbD_eq
  intro i hi
  simp only [BitVec.getLsbD_append, BitVec.getLsbD_extractLsb']
  by_cases h0 : i < 8
  · simp [h0]
  · by_cases h1 : i < 16
    · simp [h0, show i - 8 < 8 by omega, show 8 + (i - 8) = i by omega]
    · by_cases h2 : i < 24
      · simp [h0, show ¬ i - 8 < 8 by omega, show i - 8 - 8 < 8 by omega, show 16 + (i - 8 - 8) = i by omega]
      · simp [h0, show ¬ i - 8 < 8 by omega, show ¬ i - 8 - 8 < 8 by omega, show i - 8 - 8 - 8 < 8 by omega,
          show 24 + (i - 8 - 8 - 8) = i by omega]

/-- A sample is its two words, the low one first (R61). -/
theorem sample_of_words (x : F64) : x.extractLsb' 32 32 ++ x.extractLsb' 0 32 = x := by
  apply BitVec.eq_of_getLsbD_eq
  intro i hi
  simp only [BitVec.getLsbD_append, BitVec.getLsbD_extractLsb']
  by_cases h0 : i < 32
  · simp [h0]
  · simp [h0, show i - 32 < 32 by omega, show 32 + (i - 32) = i by omega]

theorem readWord_writeWord_same (h : Memory.wf m) (a : Nat) (v : Word) : readWord (writeWord m a v) a = v := by
  have h3 : readByte (writeWord m a v) (a + 3) = v.extractLsb' 24 8 := by rw [readByte_writeWord h, if_pos rfl]
  have h2 : readByte (writeWord m a v) (a + 2) = v.extractLsb' 16 8 := by simp [readByte_writeWord h]
  have h1 : readByte (writeWord m a v) (a + 1) = v.extractLsb' 8 8 := by simp [readByte_writeWord h]
  have h0 : readByte (writeWord m a v) a = v.extractLsb' 0 8 := by simp [readByte_writeWord h]
  rw [readWord, h3, h2, h1, h0, word_of_bytes]

theorem readWord_congr {m' : Memory} {a : Nat} (h : ∀ c, a ≤ c → c < a + 4 → readByte m c = readByte m' c) :
    readWord m a = readWord m' a := by
  simp only [readWord]
  rw [h a (by omega) (by omega), h (a + 1) (by omega) (by omega), h (a + 2) (by omega) (by omega),
    h (a + 3) (by omega) (by omega)]

theorem readWord_writeWord_other (h : Memory.wf m) {a c : Nat} (v : Word) (hc : c + 4 ≤ a ∨ a + 4 ≤ c) :
    readWord (writeWord m a v) c = readWord m c :=
  readWord_congr fun d _ _ => readByte_writeWord_other h v (by omega)

theorem writeSample_wf (h : Memory.wf m) (a : Nat) (x : F64) : Memory.wf (writeSample m a x) :=
  writeWord_wf (writeWord_wf h _ _) _ _

theorem readByte_writeSample_other (h : Memory.wf m) {a c : Nat} (x : F64) (hc : c < a ∨ a + 8 ≤ c) :
    readByte (writeSample m a x) c = readByte m c := by
  rw [writeSample, readByte_writeWord_other (writeWord_wf h _ _) _ (by omega), readByte_writeWord_other h _ (by omega)]

theorem readSample_writeSample_same (h : Memory.wf m) (a : Nat) (x : F64) : readSample (writeSample m a x) a = x := by
  have h0 := writeWord_wf h a (x.extractLsb' 0 32)
  rw [readSample, writeSample, readWord_writeWord_same h0, readWord_writeWord_other h0 _ (by omega),
    readWord_writeWord_same h, sample_of_words]

theorem readSample_congr {m' : Memory} {a : Nat} (h : ∀ c, a ≤ c → c < a + 8 → readByte m c = readByte m' c) :
    readSample m a = readSample m' a := by
  rw [readSample, readSample, readWord_congr fun c _ _ => h c (by omega) (by omega),
    readWord_congr fun c _ _ => h c (by omega) (by omega)]

theorem writeSamples_wf (h : Memory.wf m) (a : Nat) (x : Nat → F64) (n : Nat) : Memory.wf (writeSamples m a x n) := by
  induction n with
  | zero => exact h
  | succ n ih => exact writeSample_wf ih _ _

theorem readByte_writeSamples_other (h : Memory.wf m) {a c : Nat} (x : Nat → F64) {n : Nat}
    (hc : c < a ∨ a + 8 * n ≤ c) : readByte (writeSamples m a x n) c = readByte m c := by
  induction n with
  | zero => rfl
  | succ n ih =>
    rw [writeSamples, readByte_writeSample_other (writeSamples_wf h _ _ _) _ (by omega), ih (by omega)]

theorem readSample_writeSamples_other (h : Memory.wf m) {a c : Nat} (x : Nat → F64) {n : Nat}
    (hc : c + 8 ≤ a ∨ a + 8 * n ≤ c) : readSample (writeSamples m a x n) c = readSample m c :=
  readSample_congr fun d _ _ => readByte_writeSamples_other h x (by omega)

theorem readSample_writeSamples (h : Memory.wf m) (a : Nat) (x : Nat → F64) {n j : Nat} (hj : j < n) :
    readSample (writeSamples m a x n) (a + 8 * j) = x j := by
  induction n with
  | zero => omega
  | succ n ih =>
    by_cases hjn : j = n
    · subst hjn
      exact readSample_writeSample_same (writeSamples_wf h _ _ _) _ _
    · rw [writeSamples]
      rw [show readSample (writeSample (writeSamples m a x n) (a + 8 * n) (x n)) (a + 8 * j)
        = readSample (writeSamples m a x n) (a + 8 * j) from
          readSample_congr fun d _ _ => readByte_writeSample_other (writeSamples_wf h _ _ _) _ (by omega)]
      exact ih (by omega)

/-- Which addresses a write can list: those it wrote and those listed before. -/
theorem mem_writeWord {a : Nat} {v : Word} {c : Host.Cell} (h : c ∈ writeWord m a v) :
    (a ≤ c.1 ∧ c.1 < a + 4) ∨ c ∈ m := by
  rcases mem_writeByte h with ⟨rfl, -⟩ | h
  · left; simp
  rcases mem_writeByte h with ⟨rfl, -⟩ | h
  · left; simp
  rcases mem_writeByte h with ⟨rfl, -⟩ | h
  · left; simp
  rcases mem_writeByte h with ⟨rfl, -⟩ | h
  · left; simp
  · exact .inr h

theorem mem_writeSamples {a : Nat} {x : Nat → F64} {n : Nat} {c : Host.Cell} (h : c ∈ writeSamples m a x n) :
    (a ≤ c.1 ∧ c.1 < a + 8 * n) ∨ c ∈ m := by
  induction n with
  | zero => exact .inr h
  | succ n ih =>
    rcases mem_writeWord h with h | h
    · left; omega
    rcases mem_writeWord h with h | h
    · left; omega
    · rcases ih h with h | h
      · left; omega
      · exact .inr h

end Sys2Proof.Laws
end

