-- ==== Sys2Proof/Laws/Bus.lean ====
section
/-! SUPPORT. Laws of the address map, and what a bus access can do (R66 to R74). -/

namespace Sys2Proof.Laws

open Sys2Proof.Machine

variable {s t : State}

/-- D_MAX is in 1..2^20 (R11). -/
theorem dMax_pos : 1 ≤ Config.dMax := Nat.le_add_left 1 _

theorem dMax_le : Config.dMax ≤ 2 ^ 20 := Config.dMaxPred.isLt

theorem mem_allRegs (r : Reg) : r ∈ allRegs := by
  cases r with
  | gain b => revert b; decide
  | _ => decide

theorem regAddr_lt (r : Reg) : regAddr r < 0x7C := by
  cases r with
  | gain b => simp only [regAddr]; omega
  | _ => simp [regAddr]

theorem regAddr_aligned (r : Reg) : regAddr r % 4 = 0 := by
  cases r with
  | gain b => simp only [regAddr]; omega
  | _ => simp [regAddr]

theorem regAddr_injective : Function.Injective regAddr := by
  intro a b h
  cases a <;> cases b <;> simp only [regAddr] at h <;> first | rfl | omega | (congr 1; ext; omega)

theorem regAddr_ne_cmd (r : Reg) : regAddr r ≠ cmdAddr := by
  cases r with
  | gain b => simp only [regAddr, cmdAddr]; omega
  | _ => simp [regAddr, cmdAddr]

/-- The address of a register names it (R66). -/
theorem locate_regAddr (dMax : Nat) (r : Reg) : locate dMax (regAddr r) = .register r := by
  have h : allRegs.find? (fun r' => regAddr r' == regAddr r) = some r := by
    cases hf : allRegs.find? (fun r' => regAddr r' == regAddr r) with
    | none => exact absurd (List.find?_eq_none.mp hf r (mem_allRegs r)) (by simp)
    | some r' =>
      have := List.find?_some hf
      exact congrArg some (regAddr_injective (by simpa using this))
  simp [locate, regAddr_ne_cmd, h]

theorem locate_cmd (dMax : Nat) : locate dMax cmdAddr = .command := by simp [locate]

theorem mem_allWindows (w : SampleWindow) : w ∈ allWindows := by cases w <;> decide

theorem windowBase_ge (w : SampleWindow) : 0x10000 ≤ windowBase w := by cases w <;> simp [windowBase]

theorem inWindow_iff {dMax addr : Nat} {w : SampleWindow} :
    inWindow dMax w addr = true ↔ windowBase w ≤ addr ∧ addr < windowBase w + 8 * windowLength dMax w :=
  decide_eq_true_iff

/-- With D_MAX at most 2^20 the windows do not overlap (R66). -/
theorem inWindow_unique {dMax addr : Nat} (hd : dMax ≤ 2 ^ 20) {w w' : SampleWindow}
    (h : inWindow dMax w addr = true) (h' : inWindow dMax w' addr = true) : w = w' := by
  simp only [inWindow, decide_eq_true_eq] at h h'
  cases w <;> cases w' <;> simp only [windowBase, windowLength] at h h' <;> first | rfl | omega

/-- Any address of a window names it (R66). -/
theorem locate_inWindow {addr : Nat} {w : SampleWindow} (h : inWindow Config.dMax w addr = true) :
    locate Config.dMax addr = .sample w := by
  have hlow : 0x10000 ≤ addr := by
    have := windowBase_ge w
    simp only [inWindow, decide_eq_true_eq] at h
    omega
  have hreg : allRegs.find? (fun r => regAddr r == addr) = none := by
    refine List.find?_eq_none.mpr fun r _ => ?_
    have := regAddr_lt r
    simp only [beq_iff_eq]
    omega
  have hwin : allWindows.find? (fun w' => inWindow Config.dMax w' addr) = some w := by
    cases hf : allWindows.find? (fun w' => inWindow Config.dMax w' addr) with
    | none => exact absurd h (by simpa using List.find?_eq_none.mp hf w (mem_allWindows w))
    | some w' => exact congrArg some (inWindow_unique dMax_le (by simpa using List.find?_some hf) h)
  rw [locate, if_neg (by simp only [cmdAddr]; omega), hreg]
  simp [hwin]

theorem inWindow_of_locate {dMax addr : Nat} {w : SampleWindow} (h : locate dMax addr = .sample w) :
    inWindow dMax w addr = true := by
  simp only [locate] at h
  split at h
  · cases h
  · split at h
    · cases h
    · split at h
      · rename_i hf
        cases h
        simpa using List.find?_some hf
      · cases h

/-- CMD has one address (R66). -/
theorem cmdAddr_of_locate {dMax : Nat} {addr : Word} (h : locate dMax addr.toNat = .command) :
    addr = BitVec.ofNat 32 cmdAddr := by
  simp only [locate] at h
  split at h
  · rename_i ha
    exact BitVec.eq_of_toNat_eq (by rw [ha]; rfl)
  · split at h
    · cases h
    · split at h <;> cases h

/-- Everything a host's read can do: a permitted one changes nothing, a refused one answers 0 and sets ERR_BUS (R64, R70). -/
theorem busRead_cases (size : Nat) (addr : Word) (s : State) :
    (busRead size addr s).2 = s ∨ busRead size addr s = (0, raiseError .bus s) := by
  simp only [busRead, refuseRead]
  split
  · split
    · exact .inr rfl
    · exact .inr rfl
    · exact .inl rfl
    · split
      · exact .inr rfl
      · exact .inl rfl
  · exact .inr rfl

/-- Everything a host's write can do (R71): it is refused with one error bit, runs a command, or writes one word of the IN
or HIST windows outside BUSY. -/
inductive WriteEffect (data : Word) (addr : Word) (s : State) : State → Prop where
  | refused (b : ErrorBit) : WriteEffect data addr s (raiseError b s)
  | command (i : Instr) {t : State} (port : addr = BitVec.ofNat 32 cmdAddr) (legal : decode data = .ok i)
      (h : CommandEffect i s t) : WriteEffect data addr s t
  | stored (w : SampleWindow) (hw : w ≠ .output) (hin : inWindow Config.dMax w addr.toNat = true)
      (haligned : addr.toNat % 4 = 0) (free : s.phase ≠ .busy) :
      WriteEffect data addr s (withMemory (writeWord s.mem addr.toNat data) s)

theorem busWrite_effect (size : Nat) (addr data : Word) (s : State) :
    ∃ t, busWrite size addr data s = .next t ∧ WriteEffect data addr s t := by
  simp only [busWrite]
  split
  · rename_i hal
    have hal : addr.toNat % 4 = 0 := by
      simp only [isAligned, decide_eq_true_eq] at hal
      exact hal.2
    split
    · exact ⟨_, rfl, .refused _⟩
    · simp only [runCommand]
      split
      · exact ⟨_, rfl, .refused _⟩
      · obtain ⟨t, ht, he⟩ := exec_effect _ s
        exact ⟨t, ht, .command _ (cmdAddr_of_locate ‹_›) ‹_› he⟩
    · exact ⟨_, rfl, .refused _⟩
    · rename_i w hl
      refine ⟨_, rfl, ?_⟩
      have hin := inWindow_of_locate hl
      cases w with
      | output => exact .refused _
      | input =>
        simp only [writeWindow]
        split
        · exact .refused _
        · exact .stored .input (by decide) hin hal ‹_›
      | histDry =>
        simp only [writeWindow]
        split
        · exact .refused _
        · exact .stored .histDry (by decide) hin hal ‹_›
      | histWet =>
        simp only [writeWindow]
        split
        · exact .refused _
        · exact .stored .histWet (by decide) hin hal ‹_›
  · exact ⟨_, rfl, .refused _⟩

end Sys2Proof.Laws
end

