-- ==== Sys2Proof/Laws/Encoding.lean ====
section
/-! SUPPORT. Laws of the command word: its bits, and its fields read back (R100). -/

namespace Sys2Proof.Laws

variable (op idx : BitVec 4) (imm : BitVec 24)

theorem getLsbD_commandWord (i : Nat) :
    (commandWord op idx imm).getLsbD i =
      if i < 24 then imm.getLsbD i else if i < 28 then idx.getLsbD (i - 24) else op.getLsbD (i - 28) := by
  show BitVec.getLsbD (w := 4 + 4 + 24) ((op ++ idx) ++ imm) i = _
  rw [BitVec.getLsbD_append, BitVec.getLsbD_append]
  by_cases h : i < 24
  · simp [h]
  · by_cases h' : i < 28
    · simp [h, h', show i - 24 < 4 by omega]
    · simp [h, h', show ¬ i - 24 < 4 by omega, show i - 24 - 4 = i - 28 by omega]

@[simp] theorem opField_commandWord : opField (commandWord op idx imm) = op := by
  apply BitVec.eq_of_getLsbD_eq
  intro i hi
  rw [opField, BitVec.getLsbD_extractLsb', getLsbD_commandWord]
  simp [hi, show ¬ 28 + i < 24 by omega, show ¬ 28 + i < 28 by omega]

@[simp] theorem idxField_commandWord : idxField (commandWord op idx imm) = idx := by
  apply BitVec.eq_of_getLsbD_eq
  intro i hi
  rw [idxField, BitVec.getLsbD_extractLsb', getLsbD_commandWord]
  simp [hi, show ¬ 24 + i < 24 by omega, show 24 + i < 28 by omega]

@[simp] theorem immField_commandWord : immField (commandWord op idx imm) = imm := by
  apply BitVec.eq_of_getLsbD_eq
  intro i hi
  rw [immField, BitVec.getLsbD_extractLsb', getLsbD_commandWord]
  simp [hi]

/-- A word is its three fields (R100). -/
theorem commandWord_fields (w : Word) : commandWord (opField w) (idxField w) (immField w) = w := by
  apply BitVec.eq_of_getLsbD_eq
  intro i hi
  rw [getLsbD_commandWord, opField, idxField, immField]
  simp only [BitVec.getLsbD_extractLsb']
  by_cases h : i < 24
  · simp [h]
  · by_cases h' : i < 28
    · simp [h, h', show i - 24 < 4 by omega, show 24 + (i - 24) = i by omega]
    · simp [h, h', show i - 28 < 4 by omega, show 28 + (i - 28) = i by omega]

/-- The mask of OP and IDX takes the immediate away. -/
theorem commandWord_and_opIdx : commandWord op idx imm &&& 0xFF000000 = commandWord op idx 0 := by
  apply BitVec.eq_of_getLsbD_eq
  intro i hi
  have hm : ∀ j < 32, (0xFF000000 : Word).getLsbD j = decide (24 ≤ j) := by decide
  rw [BitVec.getLsbD_and, getLsbD_commandWord, getLsbD_commandWord, hm i hi]
  by_cases h : i < 24
  · simp [h, show ¬ 24 ≤ i by omega]
  · simp [h, show 24 ≤ i by omega]

/-- The mask of OP takes the index and the immediate away. -/
theorem commandWord_and_op : commandWord op idx imm &&& 0xF0000000 = commandWord op 0 0 := by
  apply BitVec.eq_of_getLsbD_eq
  intro i hi
  have hm : ∀ j < 32, (0xF0000000 : Word).getLsbD j = decide (28 ≤ j) := by decide
  rw [BitVec.getLsbD_and, getLsbD_commandWord, getLsbD_commandWord, hm i hi]
  by_cases h : i < 28
  · by_cases h' : i < 24 <;> simp [h, h', show ¬ 28 ≤ i by omega]
  · simp [h, show 28 ≤ i by omega, show ¬ i < 24 by omega]

end Sys2Proof.Laws
end

