-- ==== Sys2Proof/Laws/Engine.lean ====
section
/-! SUPPORT. Laws of the engine's steps: what PROCESS_DONE leaves in the window memory (R196, R232), and every way a step
of the machine can go (R19, R80). -/

namespace Sys2Proof.Laws

open Sys2Proof.Machine

variable {s t : State} {m : Memory}

theorem blockAt_lt (b : Block) {j : Nat} (h : j < 1024) : blockAt b j = b[j] := by
  have h' : j < b.toList.length := by simpa using h
  rw [blockAt, List.getD_eq_getElem _ _ h']
  simp

/-- HIST_DRY ends where HIST_WET begins, at the latest (R66). -/
theorem histDry_end : windowBase .histDry + 8 * Config.dMax ≤ windowBase .histWet := by
  have := dMax_le
  simp only [windowBase]
  omega

theorem storeBlock_wf (h : Memory.wf m) (dry wet : Block) : Memory.wf (storeBlock m dry wet) :=
  writeSamples_wf (writeSamples_wf (writeSamples_wf h _ _ _) _ _ _) _ _ _

/-- OUT after a block (R232). -/
theorem sampleAt_storeBlock_output (h : Memory.wf m) (dry wet : Block) {j : Nat} (hj : j < 1024) :
    sampleAt (storeBlock m dry wet) .output j = blockAt wet j := by
  have h1 := writeSamples_wf h (windowBase .output) (blockAt wet) 1024
  rw [sampleAt, storeBlock, readSample_writeSamples_other (writeSamples_wf h1 _ _ _),
    readSample_writeSamples_other h1, sampleAddr, readSample_writeSamples h _ _ hj]
  all_goals simp only [sampleAddr, windowBase]; omega

/-- HIST_DRY after a block (R196). -/
theorem sampleAt_storeBlock_histDry (h : Memory.wf m) (dry wet : Block) {i : Nat} (hi : i < Config.dMax) :
    sampleAt (storeBlock m dry wet) .histDry i =
      historyNext Config.dMax (sampleAt m .histDry) (blockAt dry) i := by
  have h1 := writeSamples_wf h (windowBase .output) (blockAt wet) 1024
  have := histDry_end
  rw [sampleAt, storeBlock, readSample_writeSamples_other (writeSamples_wf h1 _ _ _), sampleAddr,
    readSample_writeSamples h1 _ _ hi]
  simp only [sampleAddr]
  omega

/-- HIST_WET after a block (R196). -/
theorem sampleAt_storeBlock_histWet (h : Memory.wf m) (dry wet : Block) {i : Nat} (hi : i < Config.dMax) :
    sampleAt (storeBlock m dry wet) .histWet i =
      historyNext Config.dMax (sampleAt m .histWet) (blockAt wet) i := by
  have h1 := writeSamples_wf h (windowBase .output) (blockAt wet) 1024
  rw [sampleAt, storeBlock, sampleAddr, readSample_writeSamples (writeSamples_wf h1 _ _ _) _ _ hi]

/-- A block writes OUT and the histories, and no other byte (R51). -/
theorem readByte_storeBlock_other (h : Memory.wf m) (dry wet : Block) {a : Nat}
    (ho : inWindow Config.dMax .output a = false) (hd : inWindow Config.dMax .histDry a = false)
    (hw : inWindow Config.dMax .histWet a = false) : readByte (storeBlock m dry wet) a = readByte m a := by
  have h1 := writeSamples_wf h (windowBase .output) (blockAt wet) 1024
  rw [Bool.eq_false_iff, ne_eq, inWindow_iff] at ho hd hw
  rw [show windowLength Config.dMax .output = 1024 from rfl] at ho
  rw [show windowLength Config.dMax .histDry = Config.dMax from rfl] at hd
  rw [show windowLength Config.dMax .histWet = Config.dMax from rfl] at hw
  rw [storeBlock, readByte_writeSamples_other (writeSamples_wf h1 _ _ _) _ (by omega),
    readByte_writeSamples_other h1 _ (by omega), readByte_writeSamples_other h _ (by omega)]

theorem mem_storeBlock {dry wet : Block} {c : Host.Cell} (hc : c ∈ storeBlock m dry wet) :
    (∃ w, inWindow Config.dMax w c.1 = true) ∨ c ∈ m := by
  rcases mem_writeSamples hc with h | hc
  · exact .inl ⟨.histWet, inWindow_iff.mpr h⟩
  rcases mem_writeSamples hc with h | hc
  · exact .inl ⟨.histDry, inWindow_iff.mpr h⟩
  rcases mem_writeSamples hc with h | hc
  · exact .inl ⟨.output, inWindow_iff.mpr h⟩
  · exact .inr hc

/-- Whose turn a step is: the engine's, when it is asked to or no event is left; else the next event's. -/
inductive StepEffect (s : State) : State → Prop where
  | turn (rest : List Event) (h : s.pending = .engine :: rest ∨ (s.pending = [] ∧ rest = [])) :
      StepEffect s (engineStep (withPending rest s))
  | reset (rest : List Event) (h : s.pending = .hardReset :: rest) : StepEffect s (hardwareReset (withPending rest s))
  | read (rest : List Event) (size : Nat) (addr : Word) (h : s.pending = .read size addr :: rest) :
      StepEffect s (observeRead size addr (withPending rest s))
  | write (rest : List Event) (size : Nat) (addr data : Word) {t : State} (h : s.pending = .write size addr data :: rest)
      (eq : busWrite size addr data (withPending rest s) = .next t) (he : WriteEffect data addr (withPending rest s) t) :
      StepEffect s t

/-- A step always answers a next state, and what that state is. -/
theorem step_effect (s : State) : ∃ t, step s = .next t ∧ StepEffect s t := by
  cases hp : s.pending with
  | nil =>
    refine ⟨_, ?_, .turn [] (.inr ⟨hp, rfl⟩)⟩
    rw [step, nextEvent, hp]
    cases s
    cases hp
    rfl
  | cons e rest =>
    cases e with
    | read size addr => exact ⟨_, by rw [step, nextEvent, hp]; rfl, .read rest size addr hp⟩
    | write size addr data =>
      obtain ⟨t, ht, he⟩ := busWrite_effect size addr data (withPending rest s)
      exact ⟨t, by rw [step, nextEvent, hp]; exact ht, .write rest size addr data hp ht he⟩
    | engine => exact ⟨_, by rw [step, nextEvent, hp]; rfl, .turn rest (.inl hp)⟩
    | hardReset => exact ⟨_, by rw [step, nextEvent, hp]; rfl, .reset rest hp⟩

theorem stepEffect_of_step (h : step s = .next t) : StepEffect s t := by
  obtain ⟨t', ht', he⟩ := step_effect s
  rw [h] at ht'
  cases ht'
  exact he

end Sys2Proof.Laws
end

