-- ==== Sys2Proof/Laws/PerInstr.lean ====
section
/-! SUPPORT. One lemma per command: its word is of its row of the opcode table (R102). -/

namespace Sys2Proof.Laws.EncodeRow

/-- The word of a well-formed command is of the command's row of R102. -/
def Statement (i : Instr) : Prop := wellFormed i = true → matchesRow (encode i) (rowOf i) = true

theorem nop : Statement .nop := fun _ => by decide

theorem setBandGain (band : BitVec 4) (imm : BitVec 24) : Statement (.setBandGain band imm) := fun h => by
  have hb : band.toNat ≤ 9 := by simpa [wellFormed] using h
  simp only [matchesRow, encode, rowOf, commandWord_and_op, idxField_commandWord]
  simpa using ⟨by decide, hb⟩

theorem setMasterGain (imm : BitVec 24) : Statement (.setMasterGain imm) := fun _ => by
  simp only [matchesRow, encode, rowOf, commandWord_and_opIdx, Bool.not_false, Bool.true_or, Bool.and_true]
  decide

theorem setEchoAmount (imm : BitVec 24) : Statement (.setEchoAmount imm) := fun _ => by
  simp only [matchesRow, encode, rowOf, commandWord_and_opIdx, Bool.not_false, Bool.true_or, Bool.and_true]
  decide

theorem setEchoDelay (imm : BitVec 24) : Statement (.setEchoDelay imm) := fun _ => by
  simp only [matchesRow, encode, rowOf, commandWord_and_opIdx, Bool.not_false, Bool.true_or, Bool.and_true]
  decide

theorem setEchoEnable (enable : Bool) : Statement (.setEchoEnable enable) := fun _ => by
  cases enable <;> decide

theorem setEchoMode (imm : BitVec 24) : Statement (.setEchoMode imm) := fun _ => by
  simp only [matchesRow, encode, rowOf, commandWord_and_opIdx, Bool.not_false, Bool.true_or, Bool.and_true]
  decide

theorem process : Statement .process := fun _ => by decide

theorem resetStream : Statement .resetStream := fun _ => by decide

end Sys2Proof.Laws.EncodeRow
end

