-- ==== Sys2Proof/Laws/Rounding.lean ====
section
/-! SUPPORT. Laws of rounding: the magnitude bits that roundMag answers are those of the nearest value, ties to even
(R131). -/

namespace Sys2Proof.Laws

open Sys2Proof.Machine Sys2Proof.Safety

/-- The magnitude bits of a pattern put together. -/
theorem magBits_ofSignMag (neg : Bool) {m : Nat} (h : m < 2^63) : magBits (ofSignMag neg m) = m := by
  cases neg <;> simp [magBits, ofSignMag] <;> omega

/-- The sign bit of a pattern put together. -/
theorem signBit_ofSignMag (neg : Bool) {m : Nat} (h : m < 2^63) : signBit (ofSignMag neg m) = neg := by
  rw [signBit, BitVec.getLsbD, ofSignMag]
  cases neg
  · simp only [Bool.false_eq_true, if_false, Nat.zero_add, BitVec.toNat_ofNat]
    rw [Nat.mod_eq_of_lt (by omega)]
    exact Nat.testBit_lt_two_pow h
  · simp only [if_true, BitVec.toNat_ofNat]
    rw [Nat.mod_eq_of_lt (by omega), Nat.testBit_two_pow_add_eq, Nat.testBit_lt_two_pow h]; rfl

theorem infMag_lt : infMag < 2^63 := by decide

/-- What magnitude bits stand for, in units of 2^-1074. -/
def units (m : Nat) : Nat := if m / 2^52 = 0 then m % 2^52 else (2^52 + m % 2^52) * 2^(m/2^52 - 1)

theorem scaledMag_units (x : F64) : scaledMag x = units (magBits x) := rfl

/-- Magnitude bits put together from an exponent step and a significand, a carry out of 53 bits included. -/
theorem units_form (k q : Nat) (hq : q ≤ 2^53) (hk : k = 0 ∨ 2^52 ≤ q) : units (k * 2^52 + q) = q * 2^k := by
  unfold units
  by_cases h1 : q < 2^52
  · have : k = 0 := by omega
    subst this
    rw [if_pos (by omega), pow_zero]; omega
  · by_cases h2 : q = 2^53
    · subst h2
      rw [show (k * 2^52 + 2^53) / 2^52 = k + 2 by omega,
        show (k * 2^52 + 2^53) % 2^52 = 0 by omega, if_neg (by omega),
        show k + 2 - 1 = k + 1 by omega, pow_succ]
      ring
    · rw [show (k * 2^52 + q) / 2^52 = k + 1 by omega,
        show (k * 2^52 + q) % 2^52 = q - 2^52 by omega, if_neg (by omega), show k + 1 - 1 = k by omega,
        show 2^52 + (q - 2^52) = q by omega]

/-- Magnitude bits order the magnitudes. -/
theorem units_mono {a b : Nat} (h : a < b) : units a < units b := by
  have key : ∀ m, units m < units (m+1) := by
    intro m
    by_cases h0 : m / 2^52 = 0
    · have := units_form 0 m (by omega) (.inl rfl); have := units_form 0 (m+1) (by omega) (.inl rfl); simp at *; omega
    · obtain ⟨k, hk⟩ : ∃ k, m / 2^52 = k + 1 := ⟨m/2^52 - 1, by omega⟩
      have e1 := units_form k (m - k*2^52) (by omega) (.inr (by omega))
      have e2 := units_form k (m + 1 - k*2^52) (by omega) (.inr (by omega))
      rw [show k * 2^52 + (m - k*2^52) = m by omega] at e1
      rw [show k * 2^52 + (m + 1 - k*2^52) = m + 1 by omega] at e2
      rw [e1, e2]
      exact Nat.mul_lt_mul_of_pos_right (by omega) (by positivity)
  exact strictMono_nat_of_lt_succ key h

/-- roundDiv is nearest, and even at a tie. -/
theorem roundDiv_near (n d : Nat) (hd : 0 < d) (z : Int) :
    |((n : ℚ) / d) - roundDiv n d| ≤ |((n:ℚ)/d) - z| ∧
      (|((n : ℚ) / d) - roundDiv n d| = |((n:ℚ)/d) - z| → z ≠ roundDiv n d → roundDiv n d % 2 = 0) := by
  have hn := Nat.div_add_mod n d
  have hr := Nat.mod_lt n hd
  set q := n / d with hq
  set r := n % d with hrr
  have hx : (n : ℚ) / d = q + r / d := by
    have : (n : ℚ) = d * q + r := by exact_mod_cast hn.symm
    rw [this]; field_simp
  set f : ℚ := r / d with hf
  have hdq : (0:ℚ) < d := by exact_mod_cast hd
  have f0 : 0 ≤ f := by positivity
  have f1 : f < 1 := by rw [hf, div_lt_one hdq]; exact_mod_cast hr
  have zc : z ≤ q ∨ (q:Int) + 1 ≤ z := by omega
  have zq : ((z:ℚ) ≤ q) ∨ ((q:ℚ) + 1 ≤ z) := by
    rcases zc with h | h
    · left; exact_mod_cast h
    · right; exact_mod_cast h
  rw [hx]
  unfold roundDiv
  rw [← hq, ← hrr]
  have low : 2 * r < d → f < 1/2 := fun h => by
    rw [hf, div_lt_iff₀ hdq]
    have : (2 * r : ℚ) < d := by exact_mod_cast h
    linarith
  have hi : d < 2 * r → 1/2 < f := fun h => by
    rw [hf, lt_div_iff₀ hdq]
    have : (d : ℚ) < 2 * r := by exact_mod_cast h
    linarith
  have eqh : ¬ 2 * r < d → ¬ d < 2 * r → f = 1/2 := fun h h' => by
    have : d = 2 * r := by omega
    rw [hf, div_eq_iff hdq.ne']; rw [this]; push_cast; ring
  have absq : |(q:ℚ) + f - q| = f := by rw [show (q:ℚ) + f - q = f by ring, abs_of_nonneg f0]
  have absq1 : |(q:ℚ) + f - (q+1 : ℕ)| = 1 - f := by
    push_cast
    rw [show (q:ℚ) + f - (q+1) = -(1 - f) by ring, abs_neg, abs_of_nonneg (by linarith)]
  have zb : (z = q ∧ |(q:ℚ) + f - z| = f) ∨ (z = q+1 ∧ |(q:ℚ) + f - z| = 1 - f) ∨
      (1 ≤ |(q:ℚ) + f - z| ∧ z ≠ q ∧ z ≠ q+1 ∧ 1 + f ≤ |(q:ℚ) + f - z| ) ∨ (z ≠ q ∧ z ≠ q+1 ∧ 2 - f ≤ |(q:ℚ) + f - z|) := by
    rcases lt_trichotomy z q with h | h | h
    · right; right; left
      have : (z:ℚ) + 1 ≤ q := by exact_mod_cast h
      have : 1 + f ≤ |(q:ℚ) + f - z| := by rw [abs_of_nonneg (by linarith)]; linarith
      exact ⟨by linarith, by omega, by omega, this⟩
    · left; subst h; exact ⟨rfl, by push_cast; exact absq⟩
    · by_cases h2 : z = q + 1
      · right; left; subst h2; refine ⟨rfl, ?_⟩; push_cast at *; exact absq1
      · right; right; right
        have : (q:ℚ) + 2 ≤ z := by exact_mod_cast (by omega : (q:Int) + 2 ≤ z)
        refine ⟨by omega, h2, ?_⟩
        rw [abs_of_nonpos (by linarith)]; linarith
  split
  · have := low ‹_›
    rw [absq]
    rcases zb with ⟨h, h'⟩ | ⟨h, h'⟩ | ⟨_, h1, h2, h'⟩ | ⟨h1, h2, h'⟩
    · rw [h']; exact ⟨le_refl _, fun _ hne => absurd h hne⟩
    · rw [h']; exact ⟨by linarith, fun he => by linarith⟩
    · exact ⟨by linarith, fun he => by linarith⟩
    · exact ⟨by linarith, fun he => by linarith⟩
  · split
    · have := hi ‹_›
      rw [absq1]
      rcases zb with ⟨h, h'⟩ | ⟨h, h'⟩ | ⟨_, h1, h2, h'⟩ | ⟨h1, h2, h'⟩
      · rw [h']; exact ⟨by linarith, fun he => by linarith⟩
      · rw [h']; exact ⟨le_refl _, fun _ hne => absurd (by push_cast; exact h) hne⟩
      · exact ⟨by linarith, fun he => by linarith⟩
      · exact ⟨by linarith, fun he => by linarith⟩
    · have := eqh ‹_› ‹_›
      split
      · rw [absq]
        refine ⟨?_, fun _ _ => ‹_›⟩
        rcases zb with ⟨h, h'⟩ | ⟨h, h'⟩ | ⟨_, h1, h2, h'⟩ | ⟨h1, h2, h'⟩ <;> linarith
      · rw [absq1]
        refine ⟨?_, fun _ _ => by omega⟩
        rcases zb with ⟨h, h'⟩ | ⟨h, h'⟩ | ⟨_, h1, h2, h'⟩ | ⟨h1, h2, h'⟩ <;> linarith

theorem roundDiv_bounds (n d : Nat) : n / d ≤ roundDiv n d ∧ roundDiv n d ≤ n / d + 1 := by
  unfold roundDiv; split; omega; split; omega; split <;> omega

/-- Rounding without the bound at infinity: of the values magnitude bits stand for none is nearer, and at a tie the
significand is even. -/
theorem core_round (n d : Nat) (hd : 0 < d) :
   let k := Nat.log2 (n / d) - 52
   let q := roundDiv n (d * 2^k)
   (q ≤ 2^53 ∧ (k = 0 ∨ 2^52 ≤ q)) ∧
     ∀ m, |((n:ℚ)/d) - (q * 2^k : ℕ)| ≤ |((n:ℚ)/d) - units m| ∧
       (|((n:ℚ)/d) - (q * 2^k : ℕ)| = |((n:ℚ)/d) - units m| → units m ≠ q * 2^k → q % 2 = 0) := by
  intro k q
  have hk0 : 0 < 2^k := by positivity
  have hdk : 0 < d * 2^k := by positivity
  have hdiv : n / (d * 2^k) = n / d / 2^k := by rw [Nat.div_div_eq_div_mul]
  obtain ⟨hb1, hb2⟩ := roundDiv_bounds n (d * 2^k)
  have hlog : n / d = 0 ∨ (2^(Nat.log2 (n/d)) ≤ n/d) := by
    by_cases h : n / d = 0; exact .inl h; exact .inr (Nat.log2_self_le h)
  have hlog2 : n / d < 2^(Nat.log2 (n/d) + 1) := Nat.lt_log2_self
  have hlt : n / (d * 2^k) < 2^53 := by
    rw [hdiv, Nat.div_lt_iff_lt_mul hk0, ← pow_add]
    refine hlog2.trans_le (Nat.pow_le_pow_right (by omega) (by omega))
  have hge : k = 0 ∨ 2^52 ≤ n / (d * 2^k) := by
    by_cases hk : k = 0
    · exact .inl hk
    · right
      rw [hdiv, Nat.le_div_iff_mul_le hk0, ← pow_add]
      rcases hlog with h | h
      · exfalso; apply hk; show Nat.log2 (n/d) - 52 = 0; rw [h]; simp
      · refine le_trans (Nat.pow_le_pow_right (by omega) (by omega)) h
  have hq1 : q ≤ 2^53 := by show roundDiv _ _ ≤ _; omega
  have hq2 : k = 0 ∨ 2^52 ≤ q := by rcases hge with h | h; exact .inl h; right; show _ ≤ roundDiv _ _; omega
  refine ⟨⟨hq1, hq2⟩, fun m => ?_⟩
  have h2k : (0:ℚ) < 2^k := by positivity
  have hdq : (0:ℚ) < d := by exact_mod_cast hd
  have hx : (n:ℚ)/d = (n:ℚ)/((d * 2^k : ℕ):ℚ) * 2^k := by push_cast; field_simp
  have multiple : ∀ z : Int, |((n:ℚ)/d) - (q * 2^k : ℕ)| ≤ |((n:ℚ)/d) - z * 2^k| ∧
      (|((n:ℚ)/d) - (q * 2^k : ℕ)| = |((n:ℚ)/d) - z * 2^k| → z ≠ q → q % 2 = 0) := by
    intro z
    obtain ⟨h1, h2⟩ := roundDiv_near n (d * 2^k) hdk z
    have e1 : |((n:ℚ)/d) - (q * 2^k : ℕ)| = |(n:ℚ)/((d * 2^k : ℕ):ℚ) - q| * 2^k := by
      rw [hx]; push_cast; rw [← sub_mul, abs_mul, abs_of_pos h2k]
    have e2 : |((n:ℚ)/d) - z * 2^k| = |(n:ℚ)/((d * 2^k : ℕ):ℚ) - z| * 2^k := by
      rw [hx]; rw [← sub_mul, abs_mul, abs_of_pos h2k]
    rw [e1, e2]
    refine ⟨mul_le_mul_of_nonneg_right h1 h2k.le, fun h hne => h2 (mul_right_cancel₀ h2k.ne' h) hne⟩
  by_cases hm : 2^k ∣ units m
  · obtain ⟨z, hz⟩ := hm
    have := multiple z
    rw [show (units m : ℚ) = (z:Int) * 2^k by rw [hz]; push_cast; ring]
    refine ⟨this.1, fun h hne => this.2 h ?_⟩
    intro h'; apply hne; rw [hz]; have : z = q := by exact_mod_cast h'
    rw [this]; ring
  · have hsmall : units m < 2^52 * 2^k := by
      by_contra hcon
      apply hm
      have hmm : (k+1) * 2^52 ≤ m := by
        by_contra h'
        have := units_mono (show m < (k+1)*2^52 by omega)
        have e := units_form k (2^52) (by omega) (.inr le_rfl)
        rw [show k * 2^52 + 2^52 = (k+1) * 2^52 by ring] at e
        omega
      have hmd : k + 1 ≤ m / 2^52 := by omega
      unfold units
      rw [if_neg (by omega)]
      exact Dvd.dvd.mul_left (pow_dvd_pow 2 (by omega)) _
    have hk : k ≠ 0 := by rintro h; apply hm; rw [h]; simp
    have hxge : (2^52 * 2^k : ℚ) ≤ (n:ℚ)/d := by
      have : 2^52 ≤ n / (d*2^k) := by rcases hge with h | h; exact absurd h hk; exact h
      have : 2^52 * (d * 2^k) ≤ n := by rwa [Nat.le_div_iff_mul_le hdk] at this
      rw [le_div_iff₀ hdq]
      have : (2^52 * (d * 2^k) : ℚ) ≤ n := by exact_mod_cast this
      linarith
    have := (multiple (2^52)).1
    rw [show ((2^52 : Int) : ℚ) = 2^52 by norm_num] at this
    have hs : (units m : ℚ) < 2^52 * 2^k := by exact_mod_cast hsmall
    have a1 : |(n:ℚ)/d - 2^52 * 2^k| = (n:ℚ)/d - 2^52 * 2^k := abs_of_nonneg (by linarith)
    have a2 : |(n:ℚ)/d - units m| = (n:ℚ)/d - units m := abs_of_nonneg (by linarith)
    have lt : |((n:ℚ)/d) - (q * 2^k : ℕ)| < |((n:ℚ)/d) - units m| := by
      refine lt_of_le_of_lt this ?_
      rw [a1, a2]; linarith
    exact ⟨lt.le, fun h => absurd h lt.ne⟩

theorem unitScale_pos : (0:ℚ) < unitScale := by
  have : 0 < unitScale := by unfold unitScale; positivity
  exact_mod_cast this

theorem units_inf : (units infMag : ℚ) = 2^2098 := by
  rw [(by decide : infMag = 2046 * 2^52 + 2^52), units_form 2046 (2^52) (by norm_num) (.inr le_rfl),
    Nat.cast_mul, Nat.cast_pow, Nat.cast_pow, Nat.cast_ofNat, ← pow_add]

theorem units_max : (units (infMag - 1) : ℚ) = 2^2098 - 2 * 2^2044 := by
  rw [(by decide : infMag - 1 = 2045 * 2^52 + (2^53 - 1)), units_form 2045 (2^53 - 1) (by norm_num) (.inr (by norm_num)),
    Nat.cast_mul, Nat.cast_pow, Nat.cast_sub (by norm_num), Nat.cast_pow, Nat.cast_ofNat, sub_mul,
    ← pow_add, Nat.cast_one, one_mul, ← pow_succ']

/-- A value by its sign and magnitude bits. -/
theorem value_eq (z : F64) : value z = (if signBit z then -1 else 1) * (units (magBits z) : ℚ) / unitScale := by
  rw [value, scaled, scaledMag_units]
  generalize unitScale = u
  cases signBit z <;> simp

theorem value_ofSignMag (neg : Bool) {m : Nat} (h : m < 2^63) :
    value (ofSignMag neg m) = (if neg then -1 else 1) * (units m : ℚ) / unitScale := by
  rw [value_eq, signBit_ofSignMag neg h, magBits_ofSignMag neg h]

theorem threshold : ((2:ℚ)^1024 - 2^970) * unitScale = 2^2098 - 2^2044 := by
  rw [unitScale, Nat.cast_pow, Nat.cast_ofNat, sub_mul, ← pow_add, ← pow_add]

theorem units_injective : Function.Injective units := StrictMono.injective (fun _ _ h => units_mono h)

/-- Rounding reaches infinity from half a unit past the largest finite value on. -/
theorem overflow_iff {x : ℚ} {M : Nat}
    (h : ∀ m, |x - units M| ≤ |x - units m| ∧
      (|x - units M| = |x - units m| → units m ≠ units M → M % 2 = 0)) :
    (2:ℚ)^2098 - 2^2044 ≤ x ↔ infMag ≤ M := by
  have hinf := units_inf
  have hmax := units_max
  have pp : (0:ℚ) < 2^2044 := by positivity
  generalize (2:ℚ)^2044 = P at *
  generalize (2:ℚ)^2098 = Q at *
  constructor
  · intro hx
    by_contra hcon
    have hM : M ≤ infMag - 1 := by have := infMag_lt; omega
    have hle : (units M : ℚ) ≤ Q - 2 * P := by
      rw [← hmax]; exact_mod_cast (StrictMono.monotone (fun _ _ h => units_mono h)) hM
    obtain ⟨h1, h2⟩ := h infMag
    rw [hinf] at h1 h2
    have a1 : |x - units M| = x - units M := abs_of_nonneg (by linarith)
    rw [a1] at h1 h2
    rcases le_or_gt x Q with hxq | hxq
    · rw [abs_of_nonpos (by linarith)] at h1 h2
      have heq : (units M : ℚ) = units (infMag - 1) := by rw [hmax]; linarith
      have hMe : M = infMag - 1 := units_injective (by exact_mod_cast heq)
      have := h2 (by linarith) (by rw [hMe]; exact (units_mono (by decide : infMag - 1 < infMag)).ne')
      rw [hMe] at this
      exact absurd this (by decide)
    · rw [abs_of_nonneg (by linarith)] at h1; linarith
  · intro hM
    have h1 := (h (infMag - 1)).1
    have hle : Q ≤ (units M : ℚ) := by
      rw [← hinf]; exact_mod_cast (StrictMono.monotone (fun _ _ h => units_mono h)) hM
    rw [hmax] at h1
    by_contra hcon
    rw [not_le] at hcon
    rw [abs_of_nonpos (by linarith)] at h1
    have : |x - (Q - 2 * P)| < P := by
      by_cases hc : x ≤ Q - 2 * P
      · exfalso
        rw [abs_of_nonpos (by linarith)] at h1
        linarith
      · rw [abs_of_nonneg (by linarith)]; linarith
    linarith

/-- A number of the other sign is no nearer. -/
theorem abs_sub_le_signed {x y e s : ℚ} (hx : 0 ≤ x) (hy : 0 ≤ y) (he : e = 1 ∨ e = -1) (hs : s = 1 ∨ s = -1) :
    |x - y| ≤ |e * x - s * y| := by
  rcases he with rfl | rfl <;> rcases hs with rfl | rfl
  · simp
  · rw [abs_of_nonneg (a := 1 * x - -1 * y) (by linarith), abs_le]; constructor <;> linarith
  · rw [abs_of_nonpos (a := -1 * x - 1 * y) (by linarith), abs_le]; constructor <;> linarith
  · rw [show -1 * x - -1 * y = -(x - y) by ring, abs_neg]

theorem signed_eq {x y e s : ℚ} (hx : 0 < x) (hy : 0 ≤ y) (he : e = 1 ∨ e = -1) (hs : s = 1 ∨ s = -1)
    (h : |x - y| = |e * x - s * y|) : e * y = s * y := by
  rcases he with rfl | rfl <;> rcases hs with rfl | rfl
  · rfl
  · rw [abs_of_nonneg (a := 1 * x - -1 * y) (by linarith)] at h
    rcases abs_cases (x - y) with ⟨h', _⟩ | ⟨h', _⟩ <;> linarith
  · rw [abs_of_nonpos (a := -1 * x - 1 * y) (by linarith)] at h
    rcases abs_cases (x - y) with ⟨h', _⟩ | ⟨h', _⟩ <;> linarith
  · rfl

/-- roundMag rounds correctly: a non-zero number of n / d units of 2^-1074, with its sign (R131). -/
theorem roundsTo_roundMag (neg : Bool) {n d : Nat} (hn : 0 < n) (hd : 0 < d) :
    roundsTo ((if neg then -1 else 1) * ((n:ℚ)/d) / unitScale) (ofSignMag neg (roundMag n d)) := by
  obtain ⟨⟨hq1, hq2⟩, hnear⟩ := core_round n d hd
  have hform := units_form (Nat.log2 (n/d) - 52) (roundDiv n (d * 2 ^ (Nat.log2 (n/d) - 52))) hq1 hq2
  simp only [← hform] at hnear
  have hr : roundMag n d = min ((Nat.log2 (n/d) - 52) * 2^52 + roundDiv n (d * 2 ^ (Nat.log2 (n/d) - 52))) infMag := rfl
  have hpar : ∀ q k, q % 2 = 0 → (k * 2^52 + q) % 2 = 0 := by intro q k h; omega
  replace hnear := fun m => And.intro (hnear m).1 (fun h h' => hpar _ (Nat.log2 (n/d) - 52) ((hnear m).2 h h'))
  generalize (Nat.log2 (n/d) - 52) * 2^52 + roundDiv n (d * 2 ^ (Nat.log2 (n/d) - 52)) = M at *
  have hlt : roundMag n d < 2^63 := by rw [hr]; exact (min_le_right _ _).trans_lt infMag_lt
  have hx0 : (0:ℚ) < (n:ℚ)/d := by
    have : (0:ℚ) < n := by exact_mod_cast hn
    have : (0:ℚ) < d := by exact_mod_cast hd
    positivity
  generalize (n:ℚ)/d = x at *
  have hover := overflow_iff hnear
  have hmag := magBits_ofSignMag neg hlt
  have hthr := threshold
  have hu := unitScale_pos
  have hv := value_ofSignMag neg hlt
  obtain ⟨e, he, hneg⟩ : ∃ e : ℚ, (e = 1 ∨ e = -1) ∧ (if neg then (-1:ℚ) else 1) = e := by
    cases neg <;> simp
  have hsign : signBit (ofSignMag neg (roundMag n d)) = decide (e * x / unitScale < 0) := by
    rw [signBit_ofSignMag neg hlt, ← hneg]
    have := div_pos hx0 hu
    cases neg
    · rw [if_neg (by decide), one_mul, decide_eq_false (not_lt.mpr this.le)]
    · rw [if_pos rfl, neg_one_mul, neg_div, decide_eq_true (by linarith)]
  have hvz : ∀ z, ∃ s : ℚ, (s = 1 ∨ s = -1) ∧ value z = s * units (magBits z) / unitScale := by
    intro z
    rw [value_eq]
    refine ⟨if signBit z then -1 else 1, ?_, rfl⟩
    cases signBit z <;> simp
  rw [hneg] at hv ⊢
  refine ⟨hsign, ?_⟩
  rw [← hthr] at hover
  generalize (unitScale:ℚ) = u at *
  have habs : |e * x / u| = x / u := by
    rw [abs_div, abs_mul, abs_of_pos hu, abs_of_pos hx0]
    rcases he with rfl | rfl <;> norm_num
  rw [habs]
  rw [← le_div_iff₀ hu] at hover
  by_cases hb : infMag ≤ M
  · rw [if_pos (hover.mpr hb), isInf, hmag, hr, min_eq_right hb]
    exact decide_eq_true rfl
  · rw [if_neg (fun h => hb (hover.mp h))]
    have hrm : roundMag n d = M := by rw [hr]; exact min_eq_left (by omega)
    refine ⟨by rw [isFinite, hmag, hrm]; exact decide_eq_true (not_le.mp hb), fun z _ => ?_⟩
    obtain ⟨s, hs, hzv⟩ := hvz z
    rw [hzv, hv, hrm]
    have hm0 : (0:ℚ) ≤ units (magBits z) := Nat.cast_nonneg _
    have l1 : |e * x / u - e * units M / u| = |x - units M| / u := by
      rw [← sub_div, abs_div, abs_of_pos hu, ← mul_sub, abs_mul]
      rcases he with rfl | rfl <;> simp
    have l2 := abs_sub_le_signed hx0.le hm0 he hs
    have l3 : |e * x / u - s * units (magBits z) / u| = |e * x - s * units (magBits z)| / u := by
      rw [← sub_div, abs_div, abs_of_pos hu]
    obtain ⟨n1, n2⟩ := hnear (magBits z)
    rw [l1, l3]
    refine ⟨div_le_div_of_nonneg_right (n1.trans l2) hu.le, fun heq hne => ?_⟩
    have heq' := (div_left_inj' hu.ne').mp heq
    have h1 : |x - units M| = |x - units (magBits z)| := le_antisymm n1 (heq' ▸ l2)
    have hM : M % 2 = 0 := by
      refine n2 h1 fun hu2 => hne ?_
      rw [← hu2] at heq' ⊢
      rw [signed_eq hx0 hm0 he hs heq']
    rw [hrm] at hmag
    rw [fracField, hmag]
    omega

end Sys2Proof.Laws
end

