-- ==== Sys2Proof/Tests/Slice0.lean ====
section
/-! SUPPORT. Tests from the vectors of spec/95_test_vectors.md, and for every obligation with hypotheses a witness that
meets them. -/

namespace Sys2Proof.Tests

open Sys2Proof.Machine Sys2Proof.Safety Sys2Proof.Laws

/-! ### Well-formedness: the ill-formed term of each check is refused -/

theorem test_wellFormed_band_nine : wellFormed (.setBandGain 9 0x800000) = true := by decide

theorem test_wellFormed_band_ten_refused : wellFormed (.setBandGain 10 25) = false := by decide

theorem test_wellFormed_band_fifteen_refused : wellFormed (.setBandGain 15 25) = false := by decide

/-! ### Decoding: V-D1 to V-D18, V-S1 to V-S12 -/

theorem test_decode_nop : decode 0x00000000 = .ok .nop ∧ decode 0x00000001 = .error .strayBits := by decide

theorem test_decode_band_gain :
    decode 0x10000032 = .ok (.setBandGain 0 50) ∧ decode 0x19000000 = .ok (.setBandGain 9 0) ∧
      decode 0x10FFFFFF = .ok (.setBandGain 0 0xFFFFFF) ∧ decode 0x13000019 = .ok (.setBandGain 3 25) := by decide

theorem test_decode_band_out_of_range :
    decode 0x1A000019 = .error .bandIndex ∧ decode 0x1F000019 = .error .bandIndex := by decide

theorem test_decode_master_gain :
    decode 0x20000032 = .ok (.setMasterGain 50) ∧ decode 0x21000032 = .error .strayIdx := by decide

theorem test_decode_echo_amount : decode 0x30000096 = .ok (.setEchoAmount 150) := by decide

theorem test_decode_echo_delay :
    decode 0x40000800 = .ok (.setEchoDelay 2048) ∧ decode 0x40FFFFFF = .ok (.setEchoDelay 0xFFFFFF) := by decide

theorem test_decode_echo_enable :
    decode 0x50000001 = .ok (.setEchoEnable true) ∧ decode 0x50000000 = .ok (.setEchoEnable false) ∧
      decode 0x50000002 = .error .enableValue ∧ decode 0x50800001 = .error .enableValue := by decide

theorem test_decode_echo_mode :
    decode 0x60000007 = .ok (.setEchoMode 7) ∧ decode 0x60FFFFFF = .ok (.setEchoMode 0xFFFFFF) := by decide

theorem test_decode_process : decode 0x80000000 = .ok .process ∧ decode 0x80000001 = .error .strayBits := by decide

theorem test_decode_reset_stream :
    decode 0x90000000 = .ok .resetStream ∧ decode 0x90000010 = .error .strayBits := by decide

theorem test_decode_reserved_opcodes :
    decode 0x70000000 = .error .reservedOpcode ∧ decode 0xA0000000 = .error .reservedOpcode ∧
      decode 0xF0000000 = .error .reservedOpcode ∧ decode 0xFFFFFFFF = .error .reservedOpcode := by decide

/-! ### Encoding: the words of R107 and R108 -/

theorem test_encode_words :
    encode .nop = 0x00000000 ∧ encode (.setBandGain 3 25) = 0x13000019 ∧ encode (.setMasterGain 50) = 0x20000032 ∧
      encode (.setEchoAmount 50) = 0x30000032 ∧ encode (.setEchoDelay 1500) = 0x400005DC ∧
      encode (.setEchoEnable true) = 0x50000001 ∧ encode (.setEchoMode 1) = 0x60000001 ∧
      encode .process = 0x80000000 ∧ encode .resetStream = 0x90000000 := by decide

/-! ### Small states -/

/-- The state after reset and INIT_DONE of these tests, but for HTAB: PHASE = IDLE. -/
def idle : State := { State.reset with phase := .idle }

/-- A first block in flight, with the captured configuration given. -/
def busyWith (c : Settings) : State := { State.reset with phase := .busy, sos := false, sosUsed := true, snap := c }

/-- Echo settings beside the reset gains. -/
def echo (enable : Bool) (delay mode amount : Word) : Settings :=
  { Settings.reset with echoEnable := enable, echoDelay := delay, echoMode := mode, echoAmount := amount }

/-- A block in flight with the reset configuration. -/
def busy : State := busyWith Settings.reset

/-- The state an outcome holds, or the reset state. -/
def after (o : Host.Outcome State Fault Refusal) : State :=
  match o with
  | .next t => t
  | .fault _ => State.reset
  | .refused _ => State.reset

/-- A host's write of a command word. -/
def command (w : Word) : Event := .write 4 8 w

/-! ### Commands: V-S, V-R -/

theorem test_nop_in_init : exec .nop State.reset = .next State.reset := rfl

/-- V-S1, V-D8. -/
theorem test_set_band_gain_writes_one_gain :
    let t := after (exec (.setBandGain 3 0x800000) idle)
    readRegister (.gain 3) t = 0xFF800000 ∧ readRegister (.gain 2) t = 25 ∧ readRegister (.gain 4) t = 25 := by
  decide

/-- V-D9. -/
theorem test_set_band_gain_largest : readRegister (.gain 0) (after (exec (.setBandGain 0 0x7FFFFF) idle)) = 0x007FFFFF := by
  decide

/-- V-S2. -/
theorem test_set_master_gain : readRegister .master (after (exec (.setMasterGain 0) idle)) = 0 := by decide

/-- V-S3: no range check. -/
theorem test_set_echo_amount_unchecked :
    let t := after (exec (.setEchoAmount 150) idle)
    readRegister .echoAmount t = 150 ∧ t.errors = ErrorBits.none := by decide

/-- V-S4, V-S5, with D_MAX = 2048. -/
theorem test_set_echo_delay_range :
    delayInRange 2048 2048 = true ∧ delayInRange 2048 2049 = false ∧ delayInRange 2048 0xFFFFFF = false := by decide

/-- V-S7, with D_MAX = 1. -/
theorem test_set_echo_delay_smallest_capacity :
    let t := setDelay 1 2 (setDelay 1 1 idle)
    readRegister .echoDelay t = 1 ∧ readRegister .status t = 0x00000405 := by decide

/-- V-S9. -/
theorem test_set_echo_enable :
    readRegister .echoEnable (after (exec (.setEchoEnable true) idle)) = 1 ∧
      readRegister .echoEnable (after (exec (.setEchoEnable false) idle)) = 0 := by decide

/-- V-D13, V-S10: any mode is stored. -/
theorem test_set_echo_mode :
    readRegister .echoMode (after (exec (.setEchoMode 0xFFFFFF) idle)) = 0xFFFFFFFF ∧
      isModeOne (echo true 3 0xFFFFFFFF 50) = false ∧ isModeOne (echo true 3 7 50) = false := by decide

/-- V-R1. -/
theorem test_process_accepted :
    readRegister .status idle = 0x00000005 ∧ readRegister .status (after (exec .process idle)) = 0x00000003 ∧
      (after (exec .process idle)).sosUsed = true := by decide

/-- V-R3. -/
theorem test_process_overrun : readRegister .status (after (exec .process busy)) = 0x00000203 := by decide

/-- V-R4: RESET_STREAM while BUSY leaves the block in flight alone. -/
theorem test_reset_stream_while_busy :
    let t := after (exec .resetStream { busy with sosUsed := false })
    readRegister .status t = 0x00000007 ∧ t.sosUsed = false := by decide

/-- V-S11: a gain set while BUSY is read at once and not used by the block in flight. -/
theorem test_set_while_busy :
    let t := after (exec (.setBandGain 0 0) busy)
    readRegister (.gain 0) t = 0 ∧ t.snap.gain[0] = 25 := by decide

/-! ### Steps: V-X, V-I -/

/-- V-X1 to V-X4: legality, then phase, then range. -/
theorem test_commands_in_init :
    readRegister .status (after (runCommand 0x70000000 State.reset)) = 0x00000104 ∧
      readRegister .status (after (runCommand 0x80000000 State.reset)) = 0x00001004 ∧
      readRegister .status (after (runCommand 0x40001000 State.reset)) = 0x00001004 ∧
      readRegister .status (after (runCommand 0x00000000 State.reset)) = 0x00000004 := by decide

/-- V-X12, V-X13: misaligned, and another size than 4. -/
theorem test_read_misaligned :
    (busRead 4 2 idle).1 = 0 ∧ (busRead 4 2 idle).2.errors.bus = true ∧ (busRead 1 0 idle).2.errors.bus = true := by
  decide

/-- The map of R66 with D_MAX = 2048: V-X9 to V-X17. -/
theorem test_locate :
    locate 2048 0x00 = .register .id ∧ locate 2048 0x08 = .command ∧ locate 2048 0x24 = .unmapped ∧
      locate 2048 0x3C = .unmapped ∧ locate 2048 0x40 = .register (.gain 0) ∧ locate 2048 0x64 = .register (.gain 9) ∧
      locate 2048 0x78 = .register .echoMode ∧ locate 2048 0x7C = .unmapped ∧
      locate 2048 0x00011FFC = .sample .input ∧ locate 2048 0x00012000 = .unmapped ∧
      locate 2048 0x00020000 = .sample .output ∧ locate 2048 0x00021FFC = .sample .output ∧
      locate 2048 0x01003FFC = .sample .histDry ∧ locate 2048 0x01004000 = .unmapped ∧
      locate 2048 0x01800000 = .sample .histWet ∧ locate 2048 0x01803FFC = .sample .histWet := by decide

/-- V-I4. -/
theorem test_constants :
    readRegister .id idle = 0x50445350 ∧ readRegister .paramB idle = 0x400 ∧ readRegister .paramN idle = 0x800 ∧
      readRegister .paramL idle = 0x401 ∧ readRegister .paramNB idle = 10 := by decide

/-- Line 7 of program P1: the two words of 1.0, low word first (R61). -/
theorem test_sample_from_two_words :
    sampleAt (writeWord (writeWord [] 0x00010000 0x00000000) 0x00010004 0x3FF00000) .input 0 = 0x3FF0000000000000 ∧
      writeWord [] 0x00010004 0x3FF00000 = [(0x10006, 0xF0), (0x10007, 0x3F)] ∧
      writeWord (writeWord [] 0x00010004 0x3FF00000) 0x00010004 0 = [] := by decide

/-! ### Numbers: V-N1 to V-N9 -/

/-- V-N1. -/
theorem test_gscale :
    gscale 2 = 0x3FA47AE147AE147B ∧ gscale 3 = 0x3FAEB851EB851EB8 ∧ gscale 10 = 0x3FC999999999999A ∧
      gscale 30 = 0x3FE3333333333333 ∧ gscale 40 = 0x3FE999999999999A := by decide +kernel

/-- V-N2. -/
theorem test_gscale_extremes :
    gscale 8388607 = 0x41047AE11EB851EC ∧ gscale (-8388608) = 0xC1047AE147AE147B := by decide +kernel

/-- V-N3. -/
theorem test_ascale :
    ascale 33 = 0x3FD51EB851EB851F ∧ ascale 75 = 0x3FE8000000000000 ∧ ascale 99 = 0x3FEFAE147AE147AE ∧
      ascale 150 = 0x3FF8000000000000 ∧ ascale (-50) = 0xBFE0000000000000 := by decide +kernel

/-- V-N4: the order of a sum matters. -/
theorem test_fsum_order :
    fsum 0x4341C37937E08000 [one, one] = 0x4341C37937E08000 ∧
      fsum one [one, 0x4341C37937E08000] = 0x4341C37937E08001 := by decide +kernel

/-- V-N5. -/
theorem test_zero_times_infinity : fmul posZero 0x7FF0000000000000 = 0x7FF8000000000000 := by decide +kernel

/-- V-N6. -/
theorem test_signed_zeros :
    fadd negZero posZero = posZero ∧ fadd negZero negZero = negZero ∧ fsub posZero negZero = posZero ∧
      fsub negZero posZero = negZero := by decide +kernel

/-- V-N7, V-N8: gradual underflow, and overflow to infinity. -/
theorem test_underflow_and_overflow :
    fmul 0x0010000000000000 0x3FE0000000000000 = 0x0008000000000000 ∧
      fmul 0x7FE0000000000000 0x4000000000000000 = 0x7FF0000000000000 := by decide +kernel

/-- V-N9. -/
theorem test_cvt : cvt (-8388608) = 0xC160000000000000 := by decide +kernel

/-! ### Taps: V-H2, V-H5, V-H6, V-H7 -/

/-- All coefficients +0.0. -/
def noCoefs : Coefs := ⟨posZero, posZero, posZero, posZero, posZero, posZero, posZero, posZero, posZero, posZero,
  posZero, posZero, posZero⟩

/-- V-H2. -/
theorem test_taps_accumulate :
    tapList { noCoefs with G := one, a0 := one, b1 := one } 2 = List.replicate 9 one := by decide +kernel

/-- V-H5. -/
theorem test_taps_feed_forward :
    tapList { noCoefs with G := 0x4000000000000000, e0 := one } 1 =
      [posZero, posZero, posZero, posZero, 0x4000000000000000, posZero, posZero, posZero] := by decide +kernel

/-- V-H6. -/
theorem test_taps_sixth_feed_back :
    tapList { noCoefs with G := one, a0 := one, g1 := one } 6 =
      [one, posZero, posZero, posZero, posZero, posZero, one, posZero, posZero, posZero, posZero, posZero, one] := by
  decide +kernel

/-- V-H7. -/
theorem test_taps_nan :
    (tapList { noCoefs with G := 0x7FF0000000000000 } 0).head? = some canonicalNaN := by decide +kernel

/-! ### Echo stage: V-E2, V-E3, V-E8, V-U1 -/

/-- A unit impulse, and silence. -/
def impulse (n : Nat) : F64 := if n = 0 then one else posZero

def silence (_ : Nat) : F64 := posZero

/-- V-E2: wet[3], wet[2], wet[1], wet[0]. -/
theorem test_echo_mode_zero :
    wetLoop 2048 1 false (ascale 50) impulse silence silence silence 4 =
      [0x3FC8000000000000, 0x3FD8000000000000, 0x3FE8000000000000, 0xBFE0000000000000] := by decide +kernel

/-- V-E3. -/
theorem test_echo_mode_one :
    wetLoop 2048 3 true (ascale 50) impulse silence silence silence 7 =
      [0x3FD0000000000000, posZero, posZero, 0x3FE0000000000000, posZero, posZero, one] := by decide +kernel

/-- V-E8: wet[1], wet[0] with D = 1500, from the histories. -/
theorem test_echo_boundary :
    wetLoop 2048 1500 false (ascale 50) silence
        (fun i => if i = 548 then one else if i = 549 then 0x3FD0000000000000 else posZero)
        (fun i => if i = 548 then 0x4008000000000000 else posZero) silence 2 =
      [0x3FD0000000000000, 0x4004000000000000] := by decide +kernel

/-- V-U1, with D_MAX = 4: the last four samples, the most recent last; and V-U3, with D_MAX = 2048. -/
theorem test_history_update :
    historyNext 4 silence (fun n => cvt n) 0 = cvt 1020 ∧ historyNext 4 silence (fun n => cvt n) 3 = cvt 1023 ∧
      historyNext 2048 (fun n => cvt n) silence 547 = cvt 1571 ∧
      historyNext 2048 silence (fun n => cvt n) 1024 = cvt 0 := by decide +kernel

/-! ### Witnesses: for every obligation with hypotheses, values that meet them together -/

theorem witness_DecodeOfEncode : wellFormed (.setBandGain 9 0x800000) = true := by decide

theorem witness_EncodeOfDecode : decode 0x19800000 = .ok (.setBandGain 9 0x800000) := by decide

/-- A row that matches, and a word that decodes, at the last band. -/
theorem witness_RowsSelectCommands :
    rowOf (.setBandGain 0 0) ∈ opcodeTable ∧ matchesRow 0x19FFFFFF (rowOf (.setBandGain 0 0)) = true ∧
      decode 0x19FFFFFF = .ok (.setBandGain 9 0xFFFFFF) := by decide

theorem witness_StepRunsDecodedCommand :
    ({ idle with pending := [command 0x80000000] } : State).pending = .write 4 (BitVec.ofNat 32 cmdAddr) 0x80000000 :: [] ∧
      decode 0x80000000 = .ok .process ∧ decodeTableWord 32 0x80000000 = some .process := by decide

/-- One word for each of the cases R103 lists, at the boundaries. -/
theorem witness_IllegalWordsOnlySetErrCmd_words :
    opField 0x70000000 = 7 ∧ 10 ≤ (opField 0xA0000000).toNat ∧
      (opField 0x1A000000 = 1 ∧ 10 ≤ (idxField 0x1A000000).toNat) ∧
      (opField 0x2F000000 ∈ [2, 3, 4, 5, 6] ∧ idxField 0x2F000000 ≠ 0) ∧
      (opField 0x50000002 = 5 ∧ (0x50000002 : Word).extractLsb' 1 23 ≠ (0 : BitVec 23)) ∧
      (opField 0x98000000 ∈ [0, 8, 9] ∧ (0x98000000 : Word).extractLsb' 0 28 ≠ (0 : BitVec 28)) := by decide

theorem witness_IllegalWordsOnlySetErrCmd_step :
    ({ State.reset with pending := [command 0x1A000019] } : State).pending =
        .write 4 (BitVec.ofNat 32 cmdAddr) 0x1A000019 :: [] ∧
      ∀ row ∈ opcodeTable, matchesRow 0x1A000019 row = false := by decide

/-- Each way the phase changes is one a step takes. -/
theorem witness_PhaseChangesOnlyAsStated :
    (∃ t, step State.reset = .next t ∧ t.phase = .idle) ∧
      (∃ t, step { idle with pending := [command 0x80000000] } = .next t ∧ t.phase = .busy) ∧
      (∃ t, step busy = .next t ∧ t.phase = .idle) ∧
      (∃ t, step { busy with pending := [.hardReset] } = .next t ∧ t.phase = .init) ∧
      ∃ t, step idle = .next t ∧ t.phase = .idle :=
  ⟨⟨_, rfl, rfl⟩, ⟨_, rfl, rfl⟩, ⟨_, rfl, rfl⟩, ⟨_, rfl, rfl⟩, ⟨_, rfl, rfl⟩⟩

theorem witness_HardwareResetRestoresAll :
    ({ busy with pending := [.hardReset] } : State).pending = .hardReset :: [] := rfl

theorem witness_ready : idle.phase ≠ .init ∧ busy.phase ≠ .init ∧ idle.phase = .idle ∧ busy.phase = .busy := by decide

/-- A delay at either end of the range. -/
theorem witness_SetEchoDelayInRange :
    idle.phase ≠ .init ∧ 0 ≤ (0 : BitVec 24).toInt ∧ (0 : BitVec 24).toInt ≤ (Config.dMax : Int) ∧
      (BitVec.ofNat 24 Config.dMax).toInt = (Config.dMax : Int) := by
  have := dMax_le
  refine ⟨by decide, by decide, by simp, ?_⟩
  rw [BitVec.toInt_eq_toNat_cond, BitVec.toNat_ofNat]
  split <;> omega

/-- A delay one below the range and one above it. -/
theorem witness_SetEchoDelayOutOfRange :
    busy.phase ≠ .init ∧ (0xFFFFFF : BitVec 24).toInt < 0 ∧
      (BitVec.ofNat 24 (Config.dMax + 1)).toInt = (Config.dMax : Int) + 1 := by
  have := dMax_le
  refine ⟨by decide, by decide, ?_⟩
  rw [BitVec.toInt_eq_toNat_cond, BitVec.toNat_ofNat]
  split <;> omega

theorem witness_NopChangesNothing :
    ({ busy with pending := [command 0] } : State).pending = .write 4 (BitVec.ofNat 32 cmdAddr) 0 :: [] ∧
      ({ busy with pending := [command 1] } : State).pending = .write 4 (BitVec.ofNat 32 cmdAddr) 1 :: [] ∧
      opField 1 = 0 ∧ (1 : Word) ≠ 0 := by decide

theorem witness_CommandsDuringInitRefused :
    State.reset.phase = .init ∧ (Instr.setBandGain 9 0) ≠ .nop ∧ wellFormed (.setBandGain 9 0) = true := by decide

/-- The carry-over of the stream before, unread in IDLE and in BUSY. -/
theorem witness_StaleCarryUnobservable :
    agreeButCarry idle { idle with carry := Vector.replicate 10 (Vector.replicate 1024 one) } ∧ carryUnread idle ∧
      agreeButCarry busy { busy with carry := Vector.replicate 10 (Vector.replicate 1024 one) } ∧ carryUnread busy :=
  ⟨rfl, .inl ⟨by decide, rfl⟩, rfl, .inr ⟨rfl, rfl⟩⟩

theorem witness_UnspecifiedResetValuesUnobservable :
    agreeButUnspecified State.reset { State.reset with sosUsed := true, snap := Settings.reset } := by
  refine ⟨rfl, rfl, rfl, rfl, rfl, rfl, rfl, ⟨rfl, rfl, rfl⟩, ?_, ?_⟩
  · intro h
    exact absurd h (by decide)
  · intro h
    exact absurd rfl h

/-- The engine's turn, asked for and after the last event. -/
theorem witness_InitDoneStoresImpulseResponses :
    State.reset.phase = .init ∧ engineTurn State.reset [] ∧
      engineTurn { State.reset with pending := [.engine, .hardReset] } [.hardReset] :=
  ⟨rfl, .inr ⟨rfl, rfl⟩, .inl rfl⟩

theorem witness_FeedForwardOnlyGivesImpulse : isFinite one = true ∧ isFinite (fmul one one) = true := by decide +kernel

/-- A block in flight at the engine's turn, the echo disabled. -/
theorem witness_ProcessDone :
    busy.phase = .busy ∧ engineTurn busy [] ∧ Memory.wf busy.mem ∧ busy.snap.echoEnable = false :=
  ⟨rfl, .inr ⟨rfl, rfl⟩, wf_nil, rfl⟩

/-- Mode 0 by a value other than 0, with delay 1: n = 0 reads the history and n = 1 this block. -/
theorem witness_ProcessDoneModeZero :
    let s := busyWith (echo true 1 7 50)
    s.phase = .busy ∧ engineTurn s [] ∧ Memory.wf s.mem ∧ s.snap.echoEnable = true ∧ s.snap.echoMode.toInt ≠ 1 ∧
      s.snap.echoDelay.toInt = (1 : Nat) ∧ 1 ≤ 1 ∧ 1 ≤ Config.dMax :=
  ⟨rfl, .inr ⟨rfl, rfl⟩, wf_nil, rfl, by decide, by decide, by decide, dMax_pos⟩

theorem witness_ProcessDoneModeOne :
    let s := busyWith (echo true 1 1 50)
    s.phase = .busy ∧ engineTurn s [] ∧ Memory.wf s.mem ∧ s.snap.echoEnable = true ∧ s.snap.echoMode.toInt = 1 ∧
      s.snap.echoDelay.toInt = (1 : Nat) ∧ 1 ≤ 1 ∧ 1 ≤ Config.dMax :=
  ⟨rfl, .inr ⟨rfl, rfl⟩, wf_nil, rfl, by decide, by decide, by decide, dMax_pos⟩

theorem witness_DelayZeroUsesDraws :
    let s := busyWith (echo true 0 1 50)
    s.phase = .busy ∧ engineTurn s [] ∧ Memory.wf s.mem ∧ s.snap.echoEnable = true ∧ s.snap.echoDelay = 0 :=
  ⟨rfl, .inr ⟨rfl, rfl⟩, wf_nil, rfl, rfl⟩

/-- The oldest and the newest element of a history: the block reaches the newest for every D_MAX, and the oldest too where
D_MAX is at most 1024. -/
theorem witness_HistoryHoldsLastSamples :
    0 < Config.dMax ∧ Config.dMax - 1 < Config.dMax ∧ Config.dMax ≤ (Config.dMax - 1) + 1024 ∧
      (Config.dMax ≤ 0 + 1024 ∨ 0 + 1024 < Config.dMax) := by
  have := dMax_pos
  omega

theorem sampleAt_nil (w : SampleWindow) (j : Nat) : sampleAt [] w j = posZero := by
  simp [sampleAt, readSample, readWord, readByte, posZero]

theorem windowZero_silent (sosUsed : Bool) :
    windowZero (analysisWindow sosUsed (Vector.replicate 1024 0) (inputBlock [])) := by
  intro j
  have hin : ∀ k, blockAt (inputBlock []) k = posZero := by
    intro k
    by_cases hk : k < 1024
    · rw [blockAt_lt _ hk, inputBlock, Vector.getElem_ofFn, sampleAt_nil]
    · exact List.getD_eq_default _ _ (by simp only [Vector.length_toList]; omega)
  have hcar : ∀ k, blockAt (Vector.replicate 1024 (0 : F64)) k = posZero := by
    intro k
    by_cases hk : k < 1024
    · rw [blockAt_lt _ hk]
      simp [posZero]
    · exact List.getD_eq_default _ _ (by simp only [Vector.length_toList]; omega)
  simp only [analysisWindow, Fin.getElem_fin, Vector.getElem_ofFn, hin, hcar]
  split
  · split <;> decide
  · decide

theorem isFinite_of_isZero {x : F64} (h : isZero x = true) : isFinite x = true := by
  rw [isZero, decide_eq_true_eq] at h
  rw [isFinite, h]
  decide

theorem tapsFinite_busy (c : Settings) (b : Fin 10) : tapsFinite (busyWith c).htab[b] := by
  intro k
  have : (busyWith c).htab[b][k] = posZero := by simp [busyWith, State.reset, posZero]
  rw [this]
  decide

/-- Whatever the convolver, its answers for a silent window are zeros. -/
theorem silent_busy (c : Settings) (b : Fin 10) (m : Fin 1024) :
    isZero (Config.convolver.numConv (busyWith c).htab[b]
      (analysisWindow (busyWith c).sosUsed (busyWith c).carry[b] (inputBlock (busyWith c).mem)))[m] = true := by
  refine Config.convolver.zeros _ _ (.inl ⟨?_, tapsFinite_busy c b⟩) m
  have : (busyWith c).carry[b] = Vector.replicate 1024 0 := by simp [busyWith, State.reset]
  rw [this]
  exact windowZero_silent _

/-- All band gains 0, the echo enabled over an empty history. -/
theorem witness_ZeroGainGivesZeroBlock_bands :
    let s := busyWith { echo true 1 1 50 with gain := Vector.replicate 10 0 }
    s.phase = .busy ∧ engineTurn s [] ∧ Memory.wf s.mem ∧ convolutionsFinite s ∧ (∀ b : Fin 10, s.snap.gain[b] = 0) ∧
      (∀ i, i < Config.dMax → isZero (sampleAt s.mem .histDry i) = true ∧ isZero (sampleAt s.mem .histWet i) = true) ∧
      1 ≤ s.snap.echoDelay.toInt ∧ s.snap.echoDelay.toInt ≤ (Config.dMax : Int) := by
  have := dMax_pos
  refine ⟨rfl, .inr ⟨rfl, rfl⟩, wf_nil, fun b m => isFinite_of_isZero (silent_busy _ b m), ?_, ?_, by decide, ?_⟩
  · intro b
    simp [busyWith]
  · intro i _
    have h : ∀ w, isZero (sampleAt [] w i) = true := fun w => by rw [sampleAt_nil]; decide
    exact ⟨h _, h _⟩
  · rw [show (busyWith { echo true 1 1 50 with gain := Vector.replicate 10 0 }).snap.echoDelay.toInt = 1 from by decide]
    omega

theorem zero_cases {x : F64} (h : isZero x = true) : x = posZero ∨ x = negZero := by
  rw [isZero, decide_eq_true_eq, magBits] at h
  have hx := x.isLt
  have : x.toNat = 0 ∨ x.toNat = 2 ^ 63 := by omega
  exact this.imp (fun h => BitVec.eq_of_toNat_eq h) (fun h => BitVec.eq_of_toNat_eq (h.trans (by decide)))

theorem isZero_fadd {x y : F64} (hx : isZero x = true) (hy : isZero y = true) : isZero (fadd x y) = true := by
  rcases zero_cases hx with rfl | rfl <;> rcases zero_cases hy with rfl | rfl <;> decide +kernel

theorem isZero_bandSum {f : Vector Block 10} (n : Fin 1024) (h : ∀ b : Fin 10, isZero f[b][n] = true) :
    isZero (bandSum f n) = true :=
  isZero_fadd (isZero_fadd (isZero_fadd (isZero_fadd (isZero_fadd (isZero_fadd (isZero_fadd (isZero_fadd
    (isZero_fadd (h 0) (h 1)) (h 2)) (h 3)) (h 4)) (h 5)) (h 6)) (h 7)) (h 8)) (h 9)

/-- The master gain 0 and band gains of 25, with finite sums. -/
theorem witness_ZeroGainGivesZeroBlock_master :
    let s := busyWith { Settings.reset with master := 0 }
    s.phase = .busy ∧ engineTurn s [] ∧ Memory.wf s.mem ∧ convolutionsFinite s ∧ s.snap.master = 0 ∧
      (∀ n : Fin 1024, isFinite (bandSum (filteredBands Config.convolver.numConv s.snap s.htab s.carry s.sosUsed
        (inputBlock s.mem)) n) = true) ∧ s.snap.echoEnable = false := by
  refine ⟨rfl, .inr ⟨rfl, rfl⟩, wf_nil, fun b m => isFinite_of_isZero (silent_busy _ b m), rfl, fun n => ?_, rfl⟩
  refine isFinite_of_isZero (isZero_bandSum n fun b => ?_)
  simp only [filteredBands, bandOutput, Fin.getElem_fin, Vector.getElem_ofFn]
  have hg : ∀ b : Fin 10, gscale (busyWith { Settings.reset with master := 0 }).snap.gain[b].toInt = 0x3FE0000000000000 := by
    decide +kernel
  have hz := silent_busy { Settings.reset with master := 0 } b n
  have hf : ∀ x : F64, isZero x = true → isZero (fmul x 0x3FE0000000000000) = true := by
    intro x hx
    rcases zero_cases hx with rfl | rfl <;> decide +kernel
  have := hf _ hz
  rw [← hg b] at this
  exact this

theorem witness_SilentFirstBlockIsSilent :
    busy.phase = .busy ∧ engineTurn busy [] ∧ Memory.wf busy.mem ∧ busy.sosUsed = true ∧ busy.snap.echoEnable = false ∧
      (∀ b : Fin 10, tapsFinite busy.htab[b]) ∧ ∀ j : Fin 1024, isZero (sampleAt busy.mem .input j.val) = true :=
  ⟨rfl, .inr ⟨rfl, rfl⟩, wf_nil, rfl, rfl, tapsFinite_busy _,
    fun j => (congrArg isZero (sampleAt_nil .input j.val)).trans (by decide)⟩

/-- The first and the last sample of a window. -/
theorem witness_SampleReadsGiveBothHalves :
    idle.phase ≠ .busy ∧ 0 < windowLength Config.dMax .histWet ∧ 1023 < windowLength Config.dMax .output ∧
      Config.dMax - 1 < windowLength Config.dMax .histDry := by
  have := dMax_pos
  refine ⟨by decide, ?_, by decide, ?_⟩ <;> simp only [windowLength] <;> omega

theorem witness_SampleWritesReplaceOneHalf :
    idle.phase ≠ .busy ∧ SampleWindow.input ≠ .output ∧ SampleWindow.histDry ≠ .output ∧
      1023 < windowLength Config.dMax .input ∧ Config.dMax - 1 < windowLength Config.dMax .histDry ∧
      Memory.wf idle.mem := by
  have := dMax_pos
  refine ⟨by decide, by decide, by decide, by decide, ?_, wf_nil⟩
  simp only [windowLength]
  omega

/-- Another size at an aligned address, and each misalignment. -/
theorem witness_OnlyAlignedWordsAreAccessed :
    (1 ≠ 4 ∨ (0 : Word).toNat % 4 ≠ 0) ∧ (8 ≠ 4 ∨ (0x00010000 : Word).toNat % 4 ≠ 0) ∧
      (4 ≠ 4 ∨ (0x00010002 : Word).toNat % 4 ≠ 0) ∧ (4 ≠ 4 ∨ (0xFFFFFFFF : Word).toNat % 4 ≠ 0) := by decide

/-- The addresses next to the holes' ends. -/
theorem witness_UnmappedAccessesRefused :
    ∀ a ∈ [0x24, 0x3C, 0x7C, 0x0000FFFC, 0x00012000, 0x0001FFFC, 0x00022000, 0x00FFFFFC, 0x02000000, 0xFFFFFFFC,
        0x01800000 + 8 * Config.dMax],
      ¬ a ≤ 0x20 ∧ ¬ (0x40 ≤ a ∧ a ≤ 0x78) ∧ ¬ (0x00010000 ≤ a ∧ a ≤ 0x00011FFF) ∧
        ¬ (0x00020000 ≤ a ∧ a ≤ 0x00021FFF) ∧ ¬ (0x01000000 ≤ a ∧ a < 0x01000000 + 8 * Config.dMax) ∧
        ¬ (0x01800000 ≤ a ∧ a < 0x01800000 + 8 * Config.dMax) := by
  have := dMax_le
  have := dMax_pos
  intro a ha
  simp only [List.mem_cons, List.not_mem_nil, or_false] at ha
  refine ⟨?_, ?_, ?_, ?_, ?_, ?_⟩ <;> omega

theorem witness_AccessRightsHold :
    0x00020000 ≤ (0x00020000 : Word).toNat ∧ (0x00020000 : Word).toNat ≤ 0x00021FFF ∧
      0x00020000 ≤ (0x00021FFC : Word).toNat ∧ (0x00021FFC : Word).toNat ≤ 0x00021FFF := by decide

/-- The first and the last byte of OUT, the first of HIST_WET and the last word of IN. -/
theorem witness_BusyWindowsRefused :
    busy.phase = .busy ∧ inWindow Config.dMax .output (0x00020000 : Word).toNat = true ∧
      inWindow Config.dMax .output (0x00021FFF : Word).toNat = true ∧
      inWindow Config.dMax .input (0x00011FFC : Word).toNat = true ∧
      inWindow Config.dMax .histWet (0x01800000 : Word).toNat = true := by
  have := dMax_pos
  refine ⟨rfl, rfl, rfl, rfl, ?_⟩
  rw [inWindow_iff]
  rw [show (0x01800000 : Word).toNat = 0x01800000 from rfl]
  simp only [windowBase, windowLength]
  omega

theorem witness_SideEffectsAndIdempotency :
    SampleWindow.input ≠ .output ∧ inWindow Config.dMax .input (0x00010000 : Word).toNat = true ∧ Memory.wf idle.mem ∧
      idle.phase = .idle :=
  ⟨by decide, rfl, wf_nil, rfl⟩

theorem witness_ReadsAreObserved :
    ({ idle with pending := [.read 4 8] } : State).pending = .read 4 8 :: [] := rfl

/-- A step that is no reset, with an error bit set before it. -/
theorem witness_StatusBitsAreViewsAndSticky :
    let s := { idle with pending := [command 0x90000000], errors := ErrorBits.none.set .range }
    (∃ t, step s = .next t) ∧ noReset s ∧ s.errors.has .range = true := by
  refine ⟨⟨_, rfl⟩, ?_, rfl⟩
  intro rest h
  cases h

/-- A command written while BUSY is no PROCESS_DONE. -/
theorem witness_OnlyProcessDoneWritesResults :
    let s := { busy with pending := [command 0x90000000] }
    (∃ t, step s = .next t) ∧ noReset s ∧ Memory.wf s.mem ∧ (s.phase = .busy → ∀ rest, ¬ engineTurn s rest) := by
  refine ⟨⟨_, rfl⟩, ?_, wf_nil, ?_⟩
  · intro rest h
    cases h
  · rintro - rest (h | ⟨h, -⟩) <;> cases h

theorem witness_OnlyCommandsWriteConfiguration :
    (∃ t, step State.reset = .next t) ∧ noReset State.reset ∧ noCommand State.reset := by
  refine ⟨⟨_, rfl⟩, ?_, ?_⟩
  · intro rest h
    cases h
  · intro size data rest h
    cases h

/-- An INIT_DONE that changes HTAB. -/
theorem witness_TableWrittenByInitDoneOnly :
    let s := { State.reset with htab := Vector.replicate 10 (Vector.replicate 1025 ((filterTable Config.coef)[0][0] + 1)) }
    ∃ t, step s = .next t ∧ noReset s ∧ t.htab ≠ s.htab ∧ s.phase = .init ∧ engineTurn s [] := by
  refine ⟨_, rfl, ?_, ?_, rfl, .inr ⟨rfl, rfl⟩⟩
  · intro rest h
    cases h
  · intro h
    have h' := congrArg (fun v : Vector Taps 10 => v[0][0]) h
    have h'' : (filterTable Config.coef)[0][0] = (filterTable Config.coef)[0][0] + 1 := by
      have hr : (Vector.replicate 10 (Vector.replicate 1025 ((filterTable Config.coef)[0][0] + 1)))[0][0] =
          (filterTable Config.coef)[0][0] + 1 := by simp only [Vector.getElem_replicate]
      exact h'.trans hr
    exact absurd h'' (by bv_omega)

/-- A lost write to IN while BUSY, and PROCESS_DONE. -/
theorem witness_InputLockedWhileBusy :
    let s := { busy with pending := [.write 4 0x00010000 1] }
    (∃ t, step s = .next t) ∧ noReset s ∧ Memory.wf s.mem ∧ s.phase = .busy ∧
      (∃ t, step busy = .next t) ∧ noReset busy ∧ ∃ rest, engineTurn busy rest := by
  refine ⟨?_, ?_, wf_nil, rfl, ⟨_, rfl⟩, ?_, [], .inr ⟨rfl, rfl⟩⟩
  · obtain ⟨t, ht, -⟩ := step_effect { busy with pending := [.write 4 0x00010000 1] }
    exact ⟨t, ht⟩
  · intro rest h
    cases h
  · intro rest h
    cases h

/-- The state after reset meets the invariants, and steps. -/
theorem witness_invariants :
    memoryLegal State.reset ∧ delaysLegal State.reset ∧ carriesEqual State.reset ∧ tableFixed State.reset ∧
      integersNarrow State.reset ∧ ∃ t, step State.reset = .next t := by
  refine ⟨⟨wf_nil, by simp [State.reset]⟩, ?_, ?_, ?_, ?_, _, rfl⟩
  · refine ⟨⟨by decide, ?_⟩, by decide, ?_⟩ <;> simp [State.reset, Settings.reset, Settings.unwritten]
  · intro b b'
    simp [State.reset]
  · intro h
    exact absurd rfl h
  · have hg : ∀ b : Fin 10, -2 ^ 23 ≤ Settings.reset.gain[b].toInt ∧ Settings.reset.gain[b].toInt ≤ 2 ^ 23 := by decide
    have hu : ∀ b : Fin 10, -2 ^ 23 ≤ Settings.unwritten.gain[b].toInt ∧ Settings.unwritten.gain[b].toInt ≤ 2 ^ 23 := by
      decide
    exact ⟨⟨hg, by unfold narrow; decide, by unfold narrow; decide⟩, hu, by unfold narrow; decide,
      by unfold narrow; decide⟩

/-- A tie: 1 + 2^-53. An exact quotient, a sum of zero and a product of zero. -/
theorem witness_arithmetic :
    isFinite one = true ∧ isFinite (0x3CA0000000000000 : F64) = true ∧
      fadd one 0x3CA0000000000000 = one ∧ fdiv one 0x4008000000000000 = 0x3FD5555555555555 ∧
      isFinite negZero = true ∧ fadd one 0xBFF0000000000000 = posZero ∧ fmul negZero one = negZero ∧
      isInf (0x7FF0000000000000 : F64) = true ∧ fdiv one negZero = 0xFFF0000000000000 := by decide +kernel

theorem witness_CvtIsExact : (2 ^ 53 - 1 : Int).natAbs < 2 ^ 53 ∧ (-(2 ^ 53 - 1) : Int).natAbs < 2 ^ 53 := by decide

/-- A NaN input, the zeros and the infinities of both signs: the difference of two infinities of one sign is the invalid
case, of different signs it is the first. -/
theorem witness_NaNResultsAreCanonical :
    isNaN (0xFFF0000000000001 : F64) = true ∧ fadd 0xFFF0000000000001 one = canonicalNaN ∧ isZero negZero = true ∧
      isZero posZero = true ∧ isInf (0xFFF0000000000000 : F64) = true ∧ isInf (0x7FF0000000000000 : F64) = true ∧
      fsub 0xFFF0000000000000 0xFFF0000000000000 = canonicalNaN ∧
      fsub 0xFFF0000000000000 0x7FF0000000000000 = 0xFFF0000000000000 := by decide +kernel

/-- For each clause finite operands that meet its premises, the two signed zeros among them, and an infinity. -/
theorem witness_ZeroResultsHaveTheirSigns :
    isFinite one = true ∧ isFinite negZero = true ∧ isFinite posZero = true ∧
      value one + value 0xBFF0000000000000 = 0 ∧ value negZero + value negZero = 0 ∧ value one - value one = 0 ∧
      value negZero - value posZero = 0 ∧ value negZero * value one = 0 ∧ value negZero = 0 ∧ value one ≠ 0 ∧
      isInf (0x7FF0000000000000 : F64) = true ∧ isInf (0xFFF0000000000000 : F64) = true := by
  decide +kernel

/-- V-N6, and by hand from IEEE 754: a difference of zero, a zero dividend, and infinities beside finite numbers. -/
theorem test_zero_and_infinite_results :
    fsub negZero posZero = negZero ∧ fsub one one = posZero ∧ fdiv negZero one = negZero ∧
      fsub one 0x7FF0000000000000 = 0xFFF0000000000000 ∧ fadd 0xFFF0000000000000 one = 0xFFF0000000000000 ∧
      fmul 0xBFF0000000000000 0x7FF0000000000000 = 0xFFF0000000000000 ∧
      fdiv 0xFFF0000000000000 posZero = 0xFFF0000000000000 ∧ fdiv one 0xFFF0000000000000 = negZero := by
  decide +kernel

end Sys2Proof.Tests
end

section
/-! PROOFS. What every kind of step leaves alone, and the fields an engine turn and a read change: the rules that the proofs
about the state (10_state.md) rest on. -/

namespace Sys2Proof.Proofs

open Sys2Proof.Machine Sys2Proof.Safety Sys2Proof.Laws

variable {s t : State} {i : Instr} {addr data : Word}

/-! ### The engine's turn -/

theorem engineStep_of_init (h : s.phase = .init) : engineStep s = initDone s := by rw [engineStep, h]

theorem engineStep_of_busy (h : s.phase = .busy) : engineStep s = processDone s := by rw [engineStep, h]

theorem engineStep_of_idle (h : s.phase = .idle) : engineStep s = s := by rw [engineStep, h]

@[simp] theorem engineStep_errors (s : State) : (engineStep s).errors = s.errors := by
  unfold engineStep; split <;> rfl

@[simp] theorem engineStep_cfg (s : State) : (engineStep s).cfg = s.cfg := by
  unfold engineStep; split <;> rfl

@[simp] theorem engineStep_snap (s : State) : (engineStep s).snap = s.snap := by
  unfold engineStep; split <;> rfl

@[simp] theorem engineStep_sos (s : State) : (engineStep s).sos = s.sos := by
  unfold engineStep; split <;> rfl

@[simp] theorem engineStep_sosUsed (s : State) : (engineStep s).sosUsed = s.sosUsed := by
  unfold engineStep; split <;> rfl

/-- Only PROCESS_DONE writes BLOCKS, CARRY and the window memory (R232). -/
theorem engineStep_results_of_not_busy (h : s.phase ≠ .busy) :
    (engineStep s).blocks = s.blocks ∧ (engineStep s).carry = s.carry ∧ (engineStep s).mem = s.mem := by
  unfold engineStep
  split
  · exact ⟨rfl, rfl, rfl⟩
  · exact absurd ‹_› h
  · exact ⟨rfl, rfl, rfl⟩

/-- The engine's turn is one step, whether it was asked for or no event was left. -/
theorem step_of_engineTurn {rest : List Event} (h : engineTurn s rest) :
    step s = .next (engineStep (withPending rest s)) := by
  rcases h with h | ⟨h, rfl⟩
  · rw [step, nextEvent, h]; rfl
  · rw [step, nextEvent, h]
    cases s
    cases h
    rfl

/-! ### A host's read -/

/-- A read adds its value to the observation, and otherwise changes no more than the error bits (R64, R70). -/
theorem observeRead_eq (size : Nat) (addr : Word) (s : State) :
    observeRead size addr s =
      { s with errors := (busRead size addr s).2.errors, observed := s.observed ++ [(busRead size addr s).1] } := by
  rcases busRead_cases size addr s with h | h
  · rw [observeRead, h]
  · rw [observeRead, h]; rfl

/-- A refused read sets ERR_BUS, a permitted one no error bit (R70). -/
theorem busRead_errors (size : Nat) (addr : Word) (s : State) :
    (busRead size addr s).2.errors = s.errors ∨ (busRead size addr s).2.errors = s.errors.set .bus := by
  rcases busRead_cases size addr s with h | h
  · exact .inl (by rw [h])
  · exact .inr (by rw [h]; rfl)

section
variable (size : Nat) (addr : Word) (s : State)

@[simp] theorem observeRead_phase : (observeRead size addr s).phase = s.phase := by
  rw [observeRead_eq]

@[simp] theorem observeRead_errors : (observeRead size addr s).errors = (busRead size addr s).2.errors := rfl

@[simp] theorem observeRead_blocks : (observeRead size addr s).blocks = s.blocks := by
  rw [observeRead_eq]

@[simp] theorem observeRead_cfg : (observeRead size addr s).cfg = s.cfg := by
  rw [observeRead_eq]

@[simp] theorem observeRead_snap : (observeRead size addr s).snap = s.snap := by
  rw [observeRead_eq]

@[simp] theorem observeRead_sos : (observeRead size addr s).sos = s.sos := by
  rw [observeRead_eq]

@[simp] theorem observeRead_sosUsed : (observeRead size addr s).sosUsed = s.sosUsed := by
  rw [observeRead_eq]

@[simp] theorem observeRead_htab : (observeRead size addr s).htab = s.htab := by
  rw [observeRead_eq]

@[simp] theorem observeRead_carry : (observeRead size addr s).carry = s.carry := by
  rw [observeRead_eq]

@[simp] theorem observeRead_mem : (observeRead size addr s).mem = s.mem := by
  rw [observeRead_eq]

end

/-! ### Commands and writes -/

/-- No command writes BLOCKS, HTAB, CARRY, the window memory or the model's own fields (R51). -/
theorem commandEffect_frame (h : CommandEffect i s t) :
    t.blocks = s.blocks ∧ sameTables s t ∧ t.mem = s.mem ∧ sameOutside s t := by
  cases h <;> exact ⟨rfl, ⟨rfl, rfl⟩, rfl, rfl, rfl, rfl⟩

/-- A command leaves PHASE as it is, but for an accepted PROCESS (R21). -/
theorem commandEffect_phase (h : CommandEffect i s t) :
    t.phase = s.phase ∨ (i = .process ∧ s.phase = .idle ∧ t.phase = .busy) := by
  cases h with
  | accept hi idle => exact .inr ⟨hi, idle, rfl⟩
  | unchanged => exact .inl rfl
  | error b => exact .inl rfl
  | set c ready h => exact .inl rfl
  | restart hi ready => exact .inl rfl

/-- While a block is in flight no command changes PHASE or what was captured for the block (R40, R230, R287). -/
theorem commandEffect_of_busy (h : CommandEffect i s t) (busy : s.phase = .busy) :
    t.phase = .busy ∧ sameCapture s t := by
  cases h with
  | accept hi idle => rw [busy] at idle; cases idle
  | unchanged => exact ⟨busy, rfl, rfl⟩
  | error b => exact ⟨busy, rfl, rfl⟩
  | set c ready h => exact ⟨busy, rfl, rfl⟩
  | restart hi ready => exact ⟨busy, rfl, rfl⟩

/-- No bus write changes BLOCKS, HTAB or CARRY (R51). -/
theorem writeEffect_frame (h : WriteEffect data addr s t) : t.blocks = s.blocks ∧ sameTables s t := by
  cases h with
  | refused b => exact ⟨rfl, rfl, rfl⟩
  | command i port legal h => exact ⟨(commandEffect_frame h).1, (commandEffect_frame h).2.1⟩
  | stored w hw hin haligned free => exact ⟨rfl, rfl, rfl⟩

/-- A bus write leaves PHASE as it is, but for an accepted PROCESS written to CMD (R21). -/
theorem writeEffect_phase (h : WriteEffect data addr s t) :
    t.phase = s.phase ∨
      (addr = BitVec.ofNat 32 cmdAddr ∧ decode data = .ok .process ∧ s.phase = .idle ∧ t.phase = .busy) := by
  cases h with
  | refused b => exact .inl rfl
  | stored w hw hin haligned free => exact .inl rfl
  | command i port legal h =>
    rcases commandEffect_phase h with h | ⟨rfl, hidle, hbusy⟩
    · exact .inl h
    · exact .inr ⟨port, legal, hidle, hbusy⟩

end Sys2Proof.Proofs
end

section
/-! PROOFS. The invariants of 10_state.md that every step keeps (R29, R44, R46), and that reset meets all of them. -/

namespace Sys2Proof.Proofs

open Sys2Proof.Machine Sys2Proof.Safety Sys2Proof.Laws

variable {s t : State} {i : Instr} {addr data : Word}

/-! ### Delays (R29) -/

/-- Zero is a legal delay, whatever D_MAX. -/
theorem delayLegal_of_zero {c : Settings} (h : c.echoDelay = 0) : delayLegal c := by
  rw [delayLegal, h]
  exact ⟨le_rfl, Int.natCast_nonneg _⟩

/-- A SET command keeps the delay legal: it leaves it, or stores an immediate it has found in 0..D_MAX (R214). -/
theorem delayLegal_of_setEffect {c c' : Settings} (h : SetEffect c c') (hc : delayLegal c) : delayLegal c' := by
  rcases h.delay with hd | ⟨imm, hin, hd⟩
  · rwa [delayLegal, hd]
  · rw [delayLegal, hd, signedImm, BitVec.toInt_signExtend_of_le (by decide)]
    exact of_decide_eq_true hin

theorem delaysLegal_reset : delaysLegal State.reset := ⟨delayLegal_of_zero rfl, delayLegal_of_zero rfl⟩

theorem commandEffect_delaysLegal (h : CommandEffect i s t) (hs : delaysLegal s) : delaysLegal t := by
  cases h with
  | unchanged => exact hs
  | error b => exact hs
  | set c ready h => exact ⟨delayLegal_of_setEffect h hs.1, hs.2⟩
  | accept hi idle => exact ⟨hs.1, hs.1⟩
  | restart hi ready => exact hs

theorem writeEffect_delaysLegal (h : WriteEffect data addr s t) (hs : delaysLegal s) : delaysLegal t := by
  cases h with
  | refused b => exact hs
  | command i port legal h => exact commandEffect_delaysLegal h hs
  | stored w hw hin haligned free => exact hs

/-- Settles O51, by the kind of step: only SET_ECHO_DELAY writes a delay that is not 0, and PROCESS copies it. -/
theorem delaysStayLegal : Obligations.DelaysStayLegal := by
  intro s t hs hstep
  cases stepEffect_of_step hstep with
  | turn rest h => simpa [delaysLegal] using hs
  | reset rest h => exact delaysLegal_reset
  | read rest size addr h => simpa [delaysLegal] using hs
  | write rest size addr data h eq he => exact writeEffect_delaysLegal he hs

/-! ### Carry-over buffers (R46) -/

theorem carriesEqual_of_replicate {b : Block} (h : s.carry = Vector.replicate 10 b) : carriesEqual s := by
  intro b b'
  simp [h]

theorem carriesEqual_of_carry_eq (h : t.carry = s.carry) (hs : carriesEqual s) : carriesEqual t := by
  rwa [carriesEqual, h]

theorem carriesEqual_reset : carriesEqual State.reset := carriesEqual_of_replicate rfl

/-- PROCESS_DONE gives all ten buffers the same block, and no other turn of the engine writes them (R171). -/
theorem engineStep_carriesEqual (hs : carriesEqual s) : carriesEqual (engineStep s) := by
  by_cases hp : s.phase = .busy
  · exact carriesEqual_of_replicate (by rw [engineStep_of_busy hp, processDone_carry])
  · exact carriesEqual_of_carry_eq (engineStep_results_of_not_busy hp).2.1 hs

/-- Settles O52, by the kind of step: PROCESS_DONE and reset write all ten buffers alike, and nothing else writes them. -/
theorem carriesStayEqual : Obligations.CarriesStayEqual := by
  intro s t hs hstep
  cases stepEffect_of_step hstep with
  | turn rest h => exact engineStep_carriesEqual hs
  | reset rest h => exact carriesEqual_reset
  | read rest size addr h => exact carriesEqual_of_carry_eq (by simp) hs
  | write rest size addr data h eq he =>
    obtain ⟨-, -, hcarry⟩ := writeEffect_frame he
    exact carriesEqual_of_carry_eq hcarry hs

/-! ### The filter table (R44) -/

theorem tableFixed_reset : tableFixed State.reset := fun h => absurd rfl h

/-- HTAB stays fixed in a step that leaves it and does not leave INIT. -/
theorem tableFixed_of_htab_eq (hhtab : t.htab = s.htab) (hphase : s.phase = .init → t.phase = .init)
    (hs : tableFixed s) : tableFixed t := fun ht => hhtab.trans (hs fun h => ht (hphase h))

/-- INIT_DONE stores the table of R151, and after it no turn of the engine writes HTAB (R155). -/
theorem engineStep_tableFixed (hs : tableFixed s) : tableFixed (engineStep s) := by
  intro _
  cases hp : s.phase with
  | init => rw [engineStep_of_init hp, initDone_htab]
  | idle => rw [engineStep_of_idle hp, hs (by simp [hp])]
  | busy => rw [engineStep_of_busy hp, processDone_htab, hs (by simp [hp])]

/-- Settles O53, by the kind of step: a command, a write or a read changes neither HTAB nor the phase INIT. -/
theorem tableStaysFixed : Obligations.TableStaysFixed := by
  intro s t hs hstep
  cases stepEffect_of_step hstep with
  | turn rest h => exact engineStep_tableFixed hs
  | reset rest h => exact tableFixed_reset
  | read rest size addr h => exact tableFixed_of_htab_eq (by simp) (by simp) hs
  | write rest size addr data h eq he =>
    obtain ⟨-, hhtab, -⟩ := writeEffect_frame he
    refine tableFixed_of_htab_eq hhtab (fun hinit => ?_) hs
    rcases writeEffect_phase he with hphase | ⟨-, -, hidle, -⟩
    · exact hphase.trans hinit
    · exact absurd (hinit.symm.trans hidle) (by decide)

/-! ### The state after reset -/

theorem memoryLegal_reset : memoryLegal State.reset := ⟨wf_nil, fun _ hc => nomatch hc⟩

theorem convertedNarrow_reset : convertedNarrow Settings.reset := by
  refine ⟨fun b => ?_, by unfold narrow; decide, by unfold narrow; decide⟩
  have hgain : Settings.reset.gain[b] = 25 := by simp [Settings.reset]
  rw [hgain]
  unfold narrow
  decide

theorem convertedNarrow_unwritten : convertedNarrow Settings.unwritten := by
  refine ⟨fun b => ?_, by unfold narrow; decide, by unfold narrow; decide⟩
  have hgain : Settings.unwritten.gain[b] = 0 := by simp [Settings.unwritten]
  rw [hgain]
  unfold narrow
  decide

/-- Settles O55: reset meets each invariant, SNAP by the zeros of log entry 1. -/
theorem resetMeetsInvariants : Obligations.ResetMeetsInvariants :=
  ⟨memoryLegal_reset, delaysLegal_reset, carriesEqual_reset, tableFixed_reset,
    convertedNarrow_reset, convertedNarrow_unwritten⟩

end Sys2Proof.Proofs
end

section
/-! PROOFS. STATUS and the registers as a host reads them: STATUS bit by bit, the values after reset, and the address map
(R22 to R31, R52, R66). -/

namespace Sys2Proof.Proofs

open Sys2Proof.Machine Sys2Proof.Safety Sys2Proof.Laws

variable {s t : State}

/-! ### STATUS (R22) -/

theorem getLsbD_flagAt (flag : Bool) {bit : Nat} (hbit : bit < 32) (k : Nat) :
    (flagAt flag bit).getLsbD k = (flag && decide (k = bit)) := by
  cases flag with
  | false => simp [flagAt]
  | true => simp [flagAt, BitVec.getLsbD_twoPow, hbit, eq_comm]

/-- Each bit of STATUS is the flag placed there; at most one flag is placed at each. -/
theorem getLsbD_statusWord (s : State) (k : Nat) :
    (statusWord s).getLsbD k =
      if k = 0 then decide (s.phase ≠ .init)
      else if k = 1 then decide (s.phase = .busy)
      else if k = 2 then s.sos
      else if k = 8 then s.errors.has .cmd
      else if k = 9 then s.errors.has .overrun
      else if k = 10 then s.errors.has .range
      else if k = 11 then s.errors.has .bus
      else if k = 12 then s.errors.has .notReady
      else false := by
  simp only [statusWord, BitVec.getLsbD_or, getLsbD_flagAt, Nat.reduceLT, ErrorBits.has]
  split_ifs <;> simp_all

theorem status_reset : readRegister .status State.reset = 0x00000004 := by decide

/-- A step other than a hardware reset sets at most one error bit, and clears none (R22, R250). -/
theorem stepEffect_errors (h : StepEffect s t) (hr : noReset s) :
    t.errors = s.errors ∨ ∃ b, t.errors = s.errors.set b := by
  cases h with
  | turn rest h => exact .inl (by simp)
  | reset rest h => exact absurd h (hr rest)
  | read rest size addr h =>
    exact (busRead_errors size addr (withPending rest s)).imp_right fun he => ⟨.bus, he⟩
  | write rest size addr data h eq he =>
    cases he with
    | refused b => exact .inr ⟨b, rfl⟩
    | stored w hw hin haligned free => exact .inl rfl
    | command i port legal h =>
      cases h with
      | error b => exact .inr ⟨b, rfl⟩
      | unchanged => exact .inl rfl
      | set c ready h => exact .inl rfl
      | accept hi idle => exact .inl rfl
      | restart hi ready => exact .inl rfl

/-- Settles O45: STATUS bit by bit, and its error bits by what a step can do to them. -/
theorem statusBitsAreViewsAndSticky : Obligations.StatusBitsAreViewsAndSticky := by
  refine ⟨status_reset, getLsbD_statusWord, fun s t hstep hr => ?_⟩
  rcases stepEffect_errors (stepEffect_of_step hstep) hr with h | ⟨b, h⟩
  · exact ⟨fun b hb => h ▸ hb, .cmd, fun c _ => by rw [h]⟩
  · exact ⟨fun c hc => by simp [h, has_set, hc], b, fun c hc => by simp [h, has_set, hc]⟩

/-! ### Values after reset (R52) -/

/-- Every sample of the empty memory is +0.0. -/
theorem sampleAt_nil (w : SampleWindow) (j : Nat) : sampleAt [] w j = posZero := by
  have hword : ∀ a, readWord [] a = 0 := fun a => by simp [readWord, readByte]
  rw [sampleAt, readSample, hword, hword]
  rfl

/-- Settles O10: each element of the state after reset as R52 lists it. -/
theorem resetValues : Obligations.ResetValues := by
  refine ⟨rfl, status_reset, rfl, rfl, rfl, rfl, rfl, rfl, rfl, fun b => ?_, rfl, rfl, rfl, rfl, rfl, rfl, rfl,
    fun b j => ?_, sampleAt_nil⟩
  · simp [readRegister, State.reset, Settings.reset]
  · simp [State.reset, posZero]

/-! ### The address map (R66) -/

/-- An aligned read at the address of a register answers the register as it stands (R70). -/
theorem busRead_regAddr (r : Reg) (s : State) :
    busRead 4 (BitVec.ofNat 32 (regAddr r)) s = (readRegister r s, s) := by
  have hlt := regAddr_lt r
  have haddr : (BitVec.ofNat 32 (regAddr r)).toNat = regAddr r := by
    rw [BitVec.toNat_ofNat]
    omega
  simp [busRead, isAligned, haddr, regAddr_aligned, locate_regAddr]

theorem readRegister_echoEnable (s : State) :
    readRegister .echoEnable s = (BitVec.ofBool s.cfg.echoEnable).zeroExtend 32 := by
  rw [readRegister]
  cases s.cfg.echoEnable <;> decide

/-- Settles O36: the read at each literal address of R66 is the read of the register that has this address. -/
theorem registerReadsFollowTheMap : Obligations.RegisterReadsFollowTheMap := fun s =>
  ⟨busRead_regAddr .id s, busRead_regAddr .status s, busRead_regAddr .blocks s, busRead_regAddr .paramB s,
    busRead_regAddr .paramN s, busRead_regAddr .paramL s, busRead_regAddr .paramNB s, busRead_regAddr .paramDMax s,
    fun b => busRead_regAddr (.gain b) s, busRead_regAddr .master s, busRead_regAddr .echoAmount s,
    busRead_regAddr .echoDelay s, readRegister_echoEnable s ▸ busRead_regAddr .echoEnable s,
    busRead_regAddr .echoMode s⟩

end Sys2Proof.Proofs
end

section
/-! PROOFS. Who writes which element of the state: PHASE, the results, the configuration and IN (R21 to R51). -/

namespace Sys2Proof.Proofs

open Sys2Proof.Machine Sys2Proof.Safety Sys2Proof.Laws

variable {s t : State} {addr data : Word}

/-! ### PHASE (R21) -/

theorem eq_of_decodeBare {w : Word} {i j : Instr} (h : decodeBare w i = .ok j) :
    j = i ∧ w.extractLsb' 0 28 = (0 : BitVec 28) := by
  unfold decodeBare at h
  split at h
  · cases h; exact ⟨rfl, ‹_›⟩
  · cases h

theorem decodeImm_ne {w : Word} {f : BitVec 24 → Instr} {j : Instr} (hf : ∀ imm, f imm ≠ j) :
    decodeImm w f ≠ .ok j := by
  unfold decodeImm
  split
  · exact fun h => hf _ (Except.ok.inj h)
  · nofun

/-- PROCESS has one word (R102). -/
theorem processWord_of_decode {w : Word} (h : decode w = .ok .process) : w = 0x80000000 := by
  unfold decode at h
  split at h
  case h_8 hop =>
    obtain ⟨-, hlow⟩ := eq_of_decodeBare h
    have hlow := congrArg BitVec.toNat hlow
    simp only [opField, BitVec.extractLsb'_toNat, Nat.shiftRight_eq_div_pow] at hop hlow
    refine BitVec.eq_of_toNat_eq ?_
    have := w.isLt
    simp at hop hlow ⊢
    omega
  case h_1 => exact absurd (eq_of_decodeBare h).1 (by decide)
  case h_2 => unfold decodeBandGain at h; split at h <;> cases h
  case h_6 => unfold decodeEnable at h; split at h <;> [split at h; skip] <;> cases h
  case h_9 => exact absurd (eq_of_decodeBare h).1 (by decide)
  case h_10 => cases h
  all_goals exact absurd h (decodeImm_ne nofun)

/-- The engine's turn is INIT_DONE, PROCESS_DONE, or nothing, and each as R21 says ends in IDLE. -/
theorem engineStep_phase_cases (s : State) :
    (engineStep s).phase = s.phase ∨ (s.phase = .init ∧ (engineStep s).phase = .idle) ∨
      (s.phase = .busy ∧ (engineStep s).phase = .idle) := by
  rw [engineStep_phase]
  cases s.phase with
  | init => exact .inr (.inl ⟨rfl, rfl⟩)
  | idle => exact .inl rfl
  | busy => exact .inr (.inr ⟨rfl, rfl⟩)

/-- Settles O9, by the kind of step: the engine's turn, a reset and an accepted PROCESS are the only ones to change PHASE. -/
theorem phaseChangesOnlyAsStated : Obligations.PhaseChangesOnlyAsStated := by
  refine ⟨rfl, fun s => ⟨getLsbD_statusWord s 0, getLsbD_statusWord s 1⟩, fun s t hstep => ?_⟩
  cases stepEffect_of_step hstep with
  | turn rest h =>
    rcases engineStep_phase_cases (withPending rest s) with hp | ⟨hs, ht⟩ | ⟨hs, ht⟩
    · exact .inl hp
    · exact .inr (.inr (.inl ⟨hs, ht, rest, h⟩))
    · exact .inr (.inr (.inr (.inr ⟨hs, ht, rest, h⟩)))
  | reset rest h => exact .inr (.inl ⟨rfl, rest, h⟩)
  | read rest size addr h => exact .inl (by simp)
  | write rest size addr data h eq he =>
    rcases writeEffect_phase he with hp | ⟨rfl, hword, hs, ht⟩
    · exact .inl hp
    · rw [processWord_of_decode hword] at h
      exact .inr (.inr (.inr (.inl ⟨hs, ht, size, rest, h⟩)))

/-! ### The windows OUT and IN (R48, R49) -/

/-- A word written in one window leaves every sample of another as it is (R61, R66). -/
theorem sampleAt_writeWord_of_ne {m : Memory} (hm : Memory.wf m) {w w' : SampleWindow} (hne : w ≠ w')
    {a : Nat} (hin : inWindow Config.dMax w a = true) (haligned : a % 4 = 0) (v : Word) {j : Nat}
    (hj : j < windowLength Config.dMax w') : sampleAt (writeWord m a v) w' j = sampleAt m w' j := by
  refine readSample_congr fun c hc hc' => readByte_writeWord_other hm v ?_
  by_contra hcontra
  have hbase : windowBase w % 4 = 0 := by cases w <;> rfl
  rw [sampleAddr] at hc hc'
  rw [inWindow_iff] at hin
  exact hne (inWindow_unique (addr := c) dMax_le (inWindow_iff.mpr (by omega)) (inWindow_iff.mpr (by omega)))

/-- No bus write changes OUT (R73). -/
theorem writeEffect_output (h : WriteEffect data addr s t) (hm : Memory.wf s.mem) {j : Nat} (hj : j < 1024) :
    sampleAt t.mem .output j = sampleAt s.mem .output j := by
  cases h with
  | refused b => rfl
  | command i port legal h =>
    obtain ⟨-, -, hmem, -⟩ := commandEffect_frame h
    rw [hmem]
  | stored w hw hin haligned free => exact sampleAt_writeWord_of_ne hm hw hin haligned data hj

/-- While a block is in flight no bus write changes the window memory (R73). -/
theorem writeEffect_mem_of_busy (h : WriteEffect data addr s t) (busy : s.phase = .busy) : t.mem = s.mem := by
  cases h with
  | refused b => rfl
  | command i port legal h =>
    obtain ⟨-, -, hmem, -⟩ := commandEffect_frame h
    exact hmem
  | stored w hw hin haligned free => exact absurd busy free

/-- PROCESS_DONE leaves IN as it is (R232). -/
theorem sampleAt_storeBlock_input {m : Memory} (hm : Memory.wf m) (dry wet : Block) {j : Nat} (hj : j < 1024) :
    sampleAt (storeBlock m dry wet) .input j = sampleAt m .input j := by
  refine readSample_congr fun c hc hc' => ?_
  have hin : inWindow Config.dMax .input c = true := by
    rw [inWindow_iff]
    simp only [sampleAddr, windowLength] at hc hc' ⊢
    omega
  have hout : ∀ w, SampleWindow.input ≠ w → inWindow Config.dMax w c = false := fun w hw =>
    Bool.eq_false_iff.mpr fun h => hw (inWindow_unique dMax_le hin h)
  exact readByte_storeBlock_other hm dry wet (hout _ nofun) (hout _ nofun) (hout _ nofun)

/-- The engine never writes IN (R48). -/
theorem engineStep_input (hm : Memory.wf s.mem) {j : Nat} (hj : j < 1024) :
    sampleAt (engineStep s).mem .input j = sampleAt s.mem .input j := by
  by_cases hp : s.phase = .busy
  · rw [engineStep_of_busy hp, processDone_mem, sampleAt_storeBlock_input hm _ _ hj]
  · obtain ⟨-, -, hmem⟩ := engineStep_results_of_not_busy hp
    rw [hmem]

/-- Settles O49, by the kind of step: the engine never writes IN, and a write to it is refused while BUSY. -/
theorem inputLockedWhileBusy : Obligations.InputLockedWhileBusy := by
  intro s t hstep hr hm hlocked j hj
  cases stepEffect_of_step hstep with
  | turn rest h => exact engineStep_input (s := withPending rest s) hm hj
  | reset rest h => exact absurd h (hr rest)
  | read rest size addr h => simp
  | write rest size addr data h eq he =>
    have hbusy : s.phase = .busy := by
      rcases hlocked with hbusy | ⟨rest', hturn | ⟨hturn, -⟩⟩
      · exact hbusy
      · rw [h] at hturn; cases hturn
      · rw [h] at hturn; cases hturn
    rw [writeEffect_mem_of_busy he hbusy, withPending_mem]

/-! ### Results and configuration (R51) -/

/-- Settles O46, by the kind of step: the engine's turn outside BUSY, a read and a write leave the results alone. -/
theorem onlyProcessDoneWritesResults : Obligations.OnlyProcessDoneWritesResults := by
  intro s t hstep hr hm hnotDone
  cases stepEffect_of_step hstep with
  | turn rest h =>
    obtain ⟨hblocks, hcarry, hmem⟩ := engineStep_results_of_not_busy (s := withPending rest s)
      fun hp => hnotDone hp rest h
    exact ⟨hblocks, hcarry, fun j _ => by rw [hmem, withPending_mem]⟩
  | reset rest h => exact absurd h (hr rest)
  | read rest size addr h => simp
  | write rest size addr data h eq he =>
    obtain ⟨hblocks, -, hcarry⟩ := writeEffect_frame he
    exact ⟨hblocks, hcarry, fun j hj => writeEffect_output he hm hj⟩

/-- Settles O47, by the kind of step: of the writes, one that runs a command is to CMD. -/
theorem onlyCommandsWriteConfiguration : Obligations.OnlyCommandsWriteConfiguration := by
  intro s t hstep hr hc
  cases stepEffect_of_step hstep with
  | turn rest h => simp
  | reset rest h => exact absurd h (hr rest)
  | read rest size addr h => simp
  | write rest size addr data h eq he =>
    cases he with
    | refused b => exact ⟨rfl, rfl, rfl, rfl⟩
    | stored w hw hin haligned free => exact ⟨rfl, rfl, rfl, rfl⟩
    | command i port legal _ => exact absurd (port ▸ h) (hc size data rest)

end Sys2Proof.Proofs
end

section
/-! PROOFS. The block in flight: what it is computed from, what PROCESS_DONE does beside its samples (R25, R171, R232), and
that no command reaches it (R40). -/

namespace Sys2Proof.Proofs

open Sys2Proof.Machine Sys2Proof.Safety Sys2Proof.Laws

variable {s t : State} {i : Instr}

/-! ### PROCESS_DONE (R232) -/

theorem getElem_inputBlock (m : Memory) (j : Fin 1024) : (inputBlock m)[j] = sampleAt m .input j.val := by
  simp [inputBlock]

/-- A block takes no draws with the echo disabled or a delay above 0 (R198). -/
theorem drawsTaken_eq_zero {c : Settings} (h : c.echoEnable = false ∨ 0 < c.echoDelay.toInt) : drawsTaken c = 0 := by
  rcases h with h | h
  · simp [drawsTaken, h]
  · have hdelay : delayOf c ≠ 0 := by
      rw [delayOf]
      omega
    simp [drawsTaken, hdelay]

/-- PROCESS_DONE changes no register but STATUS and BLOCKS. -/
theorem processDone_sameRegistersBut (s : State) :
    sameRegistersBut (fun r => r = .status ∨ r = .blocks) s (processDone s) := by
  intro r hr
  cases r with
  | status => exact absurd (.inl rfl) hr
  | blocks => exact absurd (.inr rfl) hr
  | _ => rfl

/-- Settles O32: the engine's turn in BUSY is PROCESS_DONE, field by field. -/
theorem processDoneCountsAndCarries : Obligations.ProcessDoneCountsAndCarries := by
  intro s rest hbusy hturn hm
  have hstep := step_of_engineTurn hturn
  rw [engineStep_of_busy (s := withPending rest s) hbusy] at hstep
  refine ⟨_, hstep, fun b j => ?_, BitVec.toNat_add _ _, rfl, rfl, rfl,
    processDone_sameRegistersBut (withPending rest s), ⟨rfl, rfl⟩, rfl, rfl, rfl, fun h => ?_,
    fun a => readByte_storeBlock_other hm _ _⟩
  · simpa using getElem_inputBlock s.mem j
  · rw [processDone_draws, withPending_snap, drawsTaken_eq_zero h, withPending_draws, Nat.add_zero]

/-! ### What a block is computed from -/

/-- Two states in which the block in flight is the same: the captured configuration, the table, the window memory and the
draws to come agree, and CARRY does unless the block is the first of its stream (R170). -/
structure SameBlock (s t : State) : Prop where
  capture : sameCapture s t
  htab : t.htab = s.htab
  carry : s.sosUsed = true ∨ t.carry = s.carry
  mem : t.mem = s.mem
  draws : t.draws = s.draws

/-- The first block of a stream is filtered without regard to CARRY (R170, R177). -/
theorem filteredBands_first (conv : Taps → Window → Block) (snap : Settings) (htab : Vector Taps 10)
    (carry carry' : Vector Block 10) (input : Block) :
    filteredBands conv snap htab carry true input = filteredBands conv snap htab carry' true input := by
  simp [filteredBands, analysisWindow]

theorem dryBlock_congr (h : SameBlock s t) : dryBlock t = dryBlock s := by
  obtain ⟨⟨hsnap, hused⟩, hhtab, hcarry, hmem, -⟩ := h
  rw [dryBlock, dryBlock, hsnap, hused, hhtab, hmem]
  rcases hcarry with hfirst | hcarry
  · rw [hfirst, filteredBands_first]
  · rw [hcarry]

theorem wetBlock_congr (h : SameBlock s t) (dry : Block) : wetBlock t dry = wetBlock s dry := by
  obtain ⟨⟨hsnap, -⟩, -, -, hmem, hdraws⟩ := h
  rw [wetBlock, wetBlock, hsnap, hmem, hdraws]

/-- The same block leaves the same samples, carry-over and draws. -/
theorem processDone_congr (h : SameBlock s t) :
    (processDone t).mem = (processDone s).mem ∧ (processDone t).carry = (processDone s).carry ∧
      (processDone t).draws = (processDone s).draws := by
  refine ⟨?_, ?_, ?_⟩
  · rw [processDone_mem, processDone_mem, dryBlock_congr h, wetBlock_congr h, h.mem]
  · rw [processDone_carry, processDone_carry, h.mem]
  · rw [processDone_draws, processDone_draws, h.draws, h.capture.1]

/-- A command written while BUSY leaves the block in flight the same. -/
theorem sameBlock_of_commandEffect (h : CommandEffect i s t) (busy : s.phase = .busy) : SameBlock s t := by
  obtain ⟨-, ⟨hhtab, hcarry⟩, hmem, hdraws, -⟩ := commandEffect_frame h
  exact ⟨(commandEffect_of_busy h busy).2, hhtab, .inr hcarry, hmem, hdraws⟩

/-- Settles O22: with and without the command the engine completes the same block. -/
theorem commandsLeaveBlockInFlightAlone : Obligations.CommandsLeaveBlockInFlightAlone := by
  intro i s hbusy
  obtain ⟨t, hexec, he⟩ := exec_effect i s
  obtain ⟨hbusy', -⟩ := commandEffect_of_busy he hbusy
  obtain ⟨hblocks, -⟩ := commandEffect_frame he
  obtain ⟨hmem, hcarry, hdraws⟩ := processDone_congr (sameBlock_of_commandEffect he hbusy)
  refine ⟨t, hexec, ?_⟩
  rw [engineStep_of_busy hbusy, engineStep_of_busy hbusy']
  exact ⟨fun a => by rw [hmem], hcarry, by rw [processDone_blocks, processDone_blocks, hblocks], hdraws, rfl⟩

end Sys2Proof.Proofs
end

section
/-! PROOFS. Two runs side by side. States that agree in what a bus access can see step alike, so that neither the CARRY of
the stream before (R45) nor what reset leaves unspecified (R40, R42, R44) is observed. -/

namespace Sys2Proof.Proofs

open Sys2Proof.Machine Sys2Proof.Safety Sys2Proof.Laws

variable {s t : State}

/-! ### Steps alike -/

/-- Two states alike in everything that a bus access reads: what STATUS, BLOCKS, the configuration registers and the windows
show. -/
structure SameVisible (s t : State) : Prop where
  phase : t.phase = s.phase
  errors : t.errors = s.errors
  blocks : t.blocks = s.blocks
  cfg : t.cfg = s.cfg
  sos : t.sos = s.sos
  mem : t.mem = s.mem

/-- A write does the same thing to two states. -/
inductive AlikeWrite (s t : State) : State → State → Prop where
  | unchanged : AlikeWrite s t s t
  | error (b : ErrorBit) : AlikeWrite s t (raiseError b s) (raiseError b t)
  | set (c : Settings) : AlikeWrite s t (withSettings c s) (withSettings c t)
  | accept (idle : s.phase = .idle) : AlikeWrite s t (acceptBlock s) (acceptBlock t)
  | restart : AlikeWrite s t (restartStream s) (restartStream t)
  | stored (m : Memory) : AlikeWrite s t (withMemory m s) (withMemory m t)

/-- A step does the same thing to two states from which its event has been taken. -/
inductive AlikeStep (s t : State) : State → State → Prop where
  | turn : AlikeStep s t (engineStep s) (engineStep t)
  | reset : AlikeStep s t (hardwareReset s) (hardwareReset t)
  | read (e : ErrorBits) (v : Word) :
      AlikeStep s t { s with errors := e, observed := s.observed ++ [v] }
        { t with errors := e, observed := t.observed ++ [v] }
  | write {s' t' : State} (h : AlikeWrite s t s' t') : AlikeStep s t s' t'

theorem readRegister_congr (h : SameVisible s t) (r : Reg) : readRegister r t = readRegister r s := by
  obtain ⟨hphase, herrors, hblocks, hcfg, hsos, -⟩ := h
  cases r with
  | status => simp only [readRegister, statusWord, hphase, herrors, hsos]
  | blocks => exact hblocks
  | gain b => simp only [readRegister, hcfg]
  | master | echoAmount | echoDelay | echoEnable | echoMode => simp only [readRegister, hcfg]
  | id | paramB | paramN | paramL | paramNB | paramDMax => rfl

theorem busRead_congr (h : SameVisible s t) (size : Nat) (addr : Word) :
    (busRead size addr t).1 = (busRead size addr s).1 ∧
      (busRead size addr t).2.errors = (busRead size addr s).2.errors := by
  have hrefuse : (refuseRead t).1 = (refuseRead s).1 ∧ (refuseRead t).2.errors = (refuseRead s).2.errors :=
    ⟨rfl, congrArg (ErrorBits.set .bus) h.errors⟩
  unfold busRead
  split
  · split
    · exact hrefuse
    · exact hrefuse
    · exact ⟨readRegister_congr h _, h.errors⟩
    · rw [h.phase]
      split
      · exact hrefuse
      · exact ⟨by rw [h.mem], h.errors⟩
  · exact hrefuse

theorem observeRead_alike (h : SameVisible s t) (size : Nat) (addr : Word) :
    AlikeStep s t (observeRead size addr s) (observeRead size addr t) := by
  obtain ⟨hvalue, herrors⟩ := busRead_congr h size addr
  rw [observeRead_eq, observeRead_eq, hvalue, herrors]
  exact .read _ _

theorem unlessInit_alike (h : SameVisible s t) {f : State → State}
    (hf : s.phase ≠ .init → AlikeWrite s t (f s) (f t)) :
    ∃ s' t', unlessInit f s = .next s' ∧ unlessInit f t = .next t' ∧ AlikeWrite s t s' t' := by
  by_cases hp : s.phase = .init
  · exact ⟨_, _, unlessInit_init f hp, unlessInit_init f (h.phase.trans hp), .error _⟩
  · exact ⟨_, _, unlessInit_ready f hp, unlessInit_ready f (h.phase ▸ hp), hf hp⟩

/-- The SET commands: the new configuration is a function of the old one. -/
theorem setCommand_alike (h : SameVisible s t) (f : Settings → Settings) :
    ∃ s' t', unlessInit (fun s => withSettings (f s.cfg) s) s = .next s' ∧
      unlessInit (fun s => withSettings (f s.cfg) s) t = .next t' ∧ AlikeWrite s t s' t' := by
  refine unlessInit_alike h fun _ => ?_
  rw [h.cfg]
  exact .set _

/-- A command depends on PHASE and the configuration registers alone. -/
theorem exec_alike (h : SameVisible s t) (i : Instr) :
    ∃ s' t', exec i s = .next s' ∧ exec i t = .next t' ∧ AlikeWrite s t s' t' := by
  cases i with
  | nop => exact ⟨s, t, rfl, rfl, .unchanged⟩
  | setBandGain band imm =>
    simp only [exec, execSetBandGain]
    split
    · exact setCommand_alike h fun c => { c with gain := c.gain.set band.toNat (signedImm imm) }
    · exact ⟨_, _, rfl, rfl, .error _⟩
  | setMasterGain imm => exact setCommand_alike h fun c => { c with master := signedImm imm }
  | setEchoAmount imm => exact setCommand_alike h fun c => { c with echoAmount := signedImm imm }
  | setEchoDelay imm =>
    refine unlessInit_alike (f := setDelay Config.dMax imm) h fun _ => ?_
    unfold setDelay
    split
    · rw [h.cfg]
      exact .set _
    · exact .error _
  | setEchoEnable e => exact setCommand_alike h fun c => { c with echoEnable := e }
  | setEchoMode imm => exact setCommand_alike h fun c => { c with echoMode := signedImm imm }
  | process =>
    refine unlessInit_alike (f := processBlock) h fun hready => ?_
    rw [processBlock, processBlock, h.phase]
    cases hp : s.phase with
    | init => exact absurd hp hready
    | idle => exact .accept hp
    | busy => exact .error _
  | resetStream => exact unlessInit_alike (f := restartStream) h fun _ => .restart

theorem writeWindow_alike (h : SameVisible s t) (w : SampleWindow) (addr data : Word) :
    AlikeWrite s t (writeWindow w addr data s) (writeWindow w addr data t) := by
  have hstore : AlikeWrite s t
      (if s.phase = .busy then raiseError .bus s else withMemory (writeWord s.mem addr.toNat data) s)
      (if t.phase = .busy then raiseError .bus t else withMemory (writeWord t.mem addr.toNat data) t) := by
    rw [h.phase, h.mem]
    split
    · exact .error _
    · exact .stored _
  cases w with
  | output => exact .error _
  | input => exact hstore
  | histDry => exact hstore
  | histWet => exact hstore

theorem busWrite_alike (h : SameVisible s t) (size : Nat) (addr data : Word) :
    ∃ s' t', busWrite size addr data s = .next s' ∧ busWrite size addr data t = .next t' ∧ AlikeWrite s t s' t' := by
  unfold busWrite
  split
  · split
    · exact ⟨_, _, rfl, rfl, .error _⟩
    · unfold runCommand
      split
      · exact ⟨_, _, rfl, rfl, .error _⟩
      · exact exec_alike h _
    · exact ⟨_, _, rfl, rfl, .error _⟩
    · exact ⟨_, _, rfl, rfl, writeWindow_alike h _ addr data⟩
  · exact ⟨_, _, rfl, rfl, .error _⟩

theorem perform_alike (h : SameVisible s t) (e : Event) :
    ∃ s' t', perform e s = .next s' ∧ perform e t = .next t' ∧ AlikeStep s t s' t' := by
  cases e with
  | read size addr => exact ⟨_, _, rfl, rfl, observeRead_alike h size addr⟩
  | engine => exact ⟨_, _, rfl, rfl, .turn⟩
  | hardReset => exact ⟨_, _, rfl, rfl, .reset⟩
  | write size addr data =>
    obtain ⟨s', t', hs, ht, halike⟩ := busWrite_alike h size addr data
    exact ⟨s', t', hs, ht, .write halike⟩

/-- Two states alike to the bus, with the same events to come, step alike. -/
theorem step_alike (h : SameVisible s t) (hpending : t.pending = s.pending) :
    ∃ rest s' t', step s = .next s' ∧ step t = .next t' ∧
      AlikeStep (withPending rest s) (withPending rest t) s' t' := by
  cases hp : s.pending with
  | nil =>
    exact ⟨[], _, _, step_of_engineTurn (.inr ⟨hp, rfl⟩), step_of_engineTurn (.inr ⟨hpending.trans hp, rfl⟩), .turn⟩
  | cons e rest =>
    have h' : SameVisible (withPending rest s) (withPending rest t) :=
      ⟨h.phase, h.errors, h.blocks, h.cfg, h.sos, h.mem⟩
    obtain ⟨s', t', hs, ht, halike⟩ := perform_alike h' e
    exact ⟨rest, s', t', by rw [step, nextEvent, hp]; exact hs, by rw [step, nextEvent, hpending, hp]; exact ht, halike⟩

variable {s' t' : State}

/-! ### CARRY in the first block of a stream (R45, R177) -/

/-- The state with other carry-over buffers, nothing else. -/
def withCarry (c : Vector Block 10) (s : State) : State := { s with carry := c }

theorem agreeButCarry_iff : agreeButCarry s t ↔ ∃ c, t = withCarry c s :=
  ⟨fun h => ⟨t.carry, h.symm⟩, fun ⟨_, h⟩ => h ▸ rfl⟩

section
variable {c : Vector Block 10}

/-- Where the first block of a stream is in flight, PROCESS_DONE overwrites the stale CARRY unread. -/
theorem processDone_withCarry (hfirst : s.sosUsed = true) : processDone (withCarry c s) = processDone s := by
  have hblock : SameBlock s (withCarry c s) := ⟨⟨rfl, rfl⟩, rfl, .inl hfirst, rfl, rfl⟩
  rw [processDone, processDone, dryBlock_congr hblock, wetBlock_congr hblock]
  rfl

theorem engineStep_withCarry (hunread : carryUnread s) :
    engineStep s = engineStep (withCarry c s) ∨
      (agreeButCarry (engineStep s) (engineStep (withCarry c s)) ∧ carryUnread (engineStep s)) := by
  rcases hunread with ⟨hphase, hsos⟩ | ⟨hphase, hfirst⟩
  · refine .inr ⟨?_, .inl ⟨by simp, by simpa using hsos⟩⟩
    cases hp : s.phase with
    | init => rw [engineStep_of_init hp, engineStep_of_init (s := withCarry c s) hp]; rfl
    | idle => rw [engineStep_of_idle hp, engineStep_of_idle (s := withCarry c s) hp]; rfl
    | busy => exact absurd hp hphase
  · left
    rw [engineStep_of_busy hphase, engineStep_of_busy (s := withCarry c s) hphase, processDone_withCarry hfirst]

/-- RESET_STREAM makes the next block the first of its stream, and leaves the one in flight (R235). -/
theorem carryUnread_restartStream (hunread : carryUnread s) : carryUnread (restartStream s) := by
  rcases hunread with ⟨hphase, -⟩ | hbusy
  · exact .inl ⟨hphase, rfl⟩
  · exact .inr hbusy

/-- An accepted block is the first of its stream where SOS was set (R230). -/
theorem carryUnread_acceptBlock (hunread : carryUnread s) (idle : s.phase = .idle) : carryUnread (acceptBlock s) := by
  rcases hunread with ⟨-, hsos⟩ | ⟨hbusy, -⟩
  · exact .inr ⟨rfl, hsos⟩
  · rw [idle] at hbusy; cases hbusy

/-- A write copies CARRY nowhere, and the next block, or the one in flight, stays the first of its stream. -/
theorem alikeWrite_withCarry (h : AlikeWrite s (withCarry c s) s' t') (hunread : carryUnread s) :
    agreeButCarry s' t' ∧ carryUnread s' := by
  cases h with
  | unchanged => exact ⟨rfl, hunread⟩
  | error b => exact ⟨rfl, hunread⟩
  | set c => exact ⟨rfl, hunread⟩
  | stored m => exact ⟨rfl, hunread⟩
  | restart => exact ⟨rfl, carryUnread_restartStream hunread⟩
  | accept idle => exact ⟨rfl, carryUnread_acceptBlock hunread idle⟩

theorem alikeStep_withCarry (h : AlikeStep s (withCarry c s) s' t') (hunread : carryUnread s) :
    s' = t' ∨ (agreeButCarry s' t' ∧ carryUnread s') := by
  cases h with
  | turn => exact engineStep_withCarry hunread
  | reset => exact .inl rfl
  | read e v => exact .inr ⟨rfl, hunread⟩
  | write h => exact .inr (alikeWrite_withCarry h hunread)

end

/-- Settles O23: a bus access does not see CARRY, and PROCESS_DONE does not read it in the first block of a stream. -/
theorem staleCarryUnobservable : Obligations.StaleCarryUnobservable := by
  intro s t hagree hunread
  obtain ⟨c, rfl⟩ := agreeButCarry_iff.mp hagree
  obtain ⟨rest, s', t', hs, ht, halike⟩ :=
    step_alike (s := s) (t := withCarry c s) ⟨rfl, rfl, rfl, rfl, rfl, rfl⟩ rfl
  exact ⟨s', t', hs, ht, alikeStep_withCarry (s := withPending rest s) halike hunread⟩

/-! ### What reset leaves unspecified (R40, R42, R44) -/

theorem sameVisible_of_agreeButUnspecified (h : agreeButUnspecified s t) : SameVisible s t := by
  obtain ⟨hphase, herrors, hblocks, hcfg, hsos, -, hmem, -⟩ := h
  exact ⟨hphase, herrors, hblocks, hcfg, hsos, hmem⟩

/-- A write that accepts no block leaves SNAP, SOS_USED and HTAB unread; an accepted PROCESS writes SNAP and SOS_USED alike
in both states (R230). -/
theorem alikeWrite_agreeButUnspecified (h : AlikeWrite s t s' t') (hagree : agreeButUnspecified s t) :
    agreeButUnspecified s' t' := by
  obtain ⟨hphase, herrors, hblocks, hcfg, hsos, hcarry, hmem, houtside, hcapture, hhtab⟩ := hagree
  cases h with
  | unchanged => exact ⟨hphase, herrors, hblocks, hcfg, hsos, hcarry, hmem, houtside, hcapture, hhtab⟩
  | error b =>
    exact ⟨hphase, congrArg (ErrorBits.set b) herrors, hblocks, hcfg, hsos, hcarry, hmem, houtside, hcapture, hhtab⟩
  | set c => exact ⟨hphase, herrors, hblocks, rfl, hsos, hcarry, hmem, houtside, hcapture, hhtab⟩
  | restart => exact ⟨hphase, herrors, hblocks, hcfg, rfl, hcarry, hmem, houtside, hcapture, hhtab⟩
  | stored m => exact ⟨hphase, herrors, hblocks, hcfg, hsos, hcarry, rfl, houtside, hcapture, hhtab⟩
  | accept idle =>
    exact ⟨rfl, herrors, hblocks, hcfg, rfl, hcarry, hmem, houtside, fun _ => ⟨hcfg, hsos⟩,
      fun _ => hhtab (by simp [idle])⟩

/-- INIT_DONE writes HTAB unread, and PROCESS_DONE reads what both states hold alike. -/
theorem engineStep_agreeButUnspecified (hagree : agreeButUnspecified s t) :
    agreeButUnspecified (engineStep s) (engineStep t) := by
  obtain ⟨hphase, herrors, hblocks, hcfg, hsos, hcarry, hmem, ⟨hdraws, hpending, hobserved⟩, hcapture, hhtab⟩ := hagree
  cases hp : s.phase with
  | idle =>
    rw [engineStep_of_idle hp, engineStep_of_idle (hphase.trans hp)]
    exact ⟨hphase, herrors, hblocks, hcfg, hsos, hcarry, hmem, ⟨hdraws, hpending, hobserved⟩, hcapture, hhtab⟩
  | init =>
    rw [engineStep_of_init hp, engineStep_of_init (hphase.trans hp)]
    exact ⟨rfl, herrors, hblocks, hcfg, hsos, hcarry, hmem, ⟨hdraws, hpending, hobserved⟩, nofun, fun _ => rfl⟩
  | busy =>
    have hhtab' : t.htab = s.htab := hhtab (by simp [hp])
    obtain ⟨hmem', hcarry', hdraws'⟩ := processDone_congr ⟨hcapture hp, hhtab', .inr hcarry, hmem, hdraws⟩
    rw [engineStep_of_busy hp, engineStep_of_busy (hphase.trans hp)]
    exact ⟨rfl, herrors, by rw [processDone_blocks, processDone_blocks, hblocks], hcfg, hsos, hcarry', hmem',
      ⟨hdraws', hpending, hobserved⟩, nofun, fun _ => hhtab'⟩

theorem alikeStep_agreeButUnspecified (h : AlikeStep s t s' t') (hagree : agreeButUnspecified s t) :
    agreeButUnspecified s' t' := by
  cases h with
  | turn => exact engineStep_agreeButUnspecified hagree
  | write h => exact alikeWrite_agreeButUnspecified h hagree
  | reset =>
    obtain ⟨-, -, -, -, -, -, -, houtside, -⟩ := hagree
    exact ⟨rfl, rfl, rfl, rfl, rfl, rfl, rfl, houtside, fun _ => ⟨rfl, rfl⟩, fun _ => rfl⟩
  | read e v =>
    obtain ⟨hphase, -, hblocks, hcfg, hsos, hcarry, hmem, ⟨hdraws, hpending, hobserved⟩, hcapture, hhtab⟩ := hagree
    exact ⟨hphase, rfl, hblocks, hcfg, hsos, hcarry, hmem, ⟨hdraws, hpending, congrArg (· ++ [v]) hobserved⟩,
      hcapture, hhtab⟩

theorem agreeButUnspecified_withPending (h : agreeButUnspecified s t) (rest : List Event) :
    agreeButUnspecified (withPending rest s) (withPending rest t) := by
  obtain ⟨hphase, herrors, hblocks, hcfg, hsos, hcarry, hmem, ⟨hdraws, -, hobserved⟩, hcapture, hhtab⟩ := h
  exact ⟨hphase, herrors, hblocks, hcfg, hsos, hcarry, hmem, ⟨hdraws, rfl, hobserved⟩, hcapture, hhtab⟩

/-- Settles O24: a bus access sees nothing that reset leaves unspecified, and each element is written before the engine reads
it. -/
theorem unspecifiedResetValuesUnobservable : Obligations.UnspecifiedResetValuesUnobservable := by
  intro s t hagree
  have hpending : t.pending = s.pending := by
    obtain ⟨-, -, -, -, -, -, -, ⟨-, hpending, -⟩, -⟩ := hagree
    exact hpending
  obtain ⟨rest, s', t', hs, ht, halike⟩ := step_alike (sameVisible_of_agreeButUnspecified hagree) hpending
  exact ⟨s', t', hs, ht, alikeStep_agreeButUnspecified halike (agreeButUnspecified_withPending hagree rest)⟩

end Sys2Proof.Proofs
end

section
/-! PROOFS. The rules of a bus access (R62, R67, R70 to R74): what each place of the address map answers to a read and to a
write, which address names which place, and that a refused access sets its error bit alone. -/

namespace Sys2Proof.Proofs

open Sys2Proof.Machine Sys2Proof.Safety Sys2Proof.Laws

variable {s t : State} {w : SampleWindow} {size a : Nat} {addr : Word}

/-! ### Registers that an update does not reach -/

/-- Every register but STATUS is BLOCKS, the configuration, or a constant (R22 to R31). -/
theorem sameRegistersBut_status (hblocks : t.blocks = s.blocks) (hcfg : t.cfg = s.cfg) :
    sameRegistersBut (· = .status) s t := by
  intro r hr
  cases r with
  | status => exact absurd rfl hr
  | blocks => exact hblocks
  | gain b => simp only [readRegister, hcfg]
  | master | echoAmount | echoDelay | echoEnable | echoMode => simp only [readRegister, hcfg]
  | id | paramB | paramN | paramL | paramNB | paramDMax => rfl

/-- No register shows the window memory (R66). -/
theorem readRegister_withMemory (m : Memory) (s : State) (r : Reg) :
    readRegister r (withMemory m s) = readRegister r s := by
  cases r <;> rfl

/-- Raising an error sets its bit and changes nothing else (R250). -/
theorem onlyErrorSet_raiseError (b : ErrorBit) (s : State) : onlyErrorSet b s (raiseError b s) :=
  ⟨by simp [has_set], fun c hc => by simp [has_set, hc], rfl, rfl, sameRegistersBut_status rfl rfl, fun _ => rfl,
    ⟨rfl, rfl⟩, ⟨rfl, rfl⟩, rfl, rfl, rfl⟩

/-! ### What an address names (R66, R67) -/

theorem regAddr_ranges (r : Reg) : regAddr r ≤ 0x20 ∨ (0x40 ≤ regAddr r ∧ regAddr r ≤ 0x78) := by
  cases r with
  | gain b => simp only [regAddr]; omega
  | _ => simp [regAddr]

/-- An address that is neither CMD's nor a register's and lies in no window is unmapped (R67). -/
theorem locate_eq_unmapped {dMax : Nat} (hcmd : a ≠ cmdAddr) (hreg : ∀ r, regAddr r ≠ a)
    (hwin : ∀ w, ¬ inWindow dMax w a = true) : locate dMax a = .unmapped := by
  have hregs : allRegs.find? (fun r => regAddr r == a) = none :=
    List.find?_eq_none.mpr fun r _ => by simpa using hreg r
  have hwins : allWindows.find? (fun w => inWindow dMax w a) = none :=
    List.find?_eq_none.mpr fun w _ => hwin w
  simp only [locate, if_neg hcmd, hregs, hwins]

theorem windowBase_aligned (w : SampleWindow) : windowBase w % 4 = 0 := by cases w <;> rfl

theorem sampleAddr_aligned (w : SampleWindow) (j : Nat) : sampleAddr w j % 4 = 0 := by
  have := windowBase_aligned w
  rw [sampleAddr]
  omega

/-- Each byte of a sample of a window lies in the window (R61). -/
theorem inWindow_sample {j k : Nat} (hj : j < windowLength Config.dMax w) (hk : k < 8) :
    inWindow Config.dMax w (sampleAddr w j + k) = true := by
  rw [inWindow_iff, sampleAddr]
  omega

/-- The windows lie in the 32-bit address space (R66). -/
theorem toNat_ofNat_of_inWindow (h : inWindow Config.dMax w a = true) : (BitVec.ofNat 32 a).toNat = a := by
  have hd := dMax_le
  rw [inWindow_iff] at h
  rw [BitVec.toNat_ofNat, Nat.mod_eq_of_lt]
  cases w <;> simp only [windowBase, windowLength] at h <;> omega

theorem toNat_ofNat_regAddr (r : Reg) : (BitVec.ofNat 32 (regAddr r)).toNat = regAddr r := by
  have := regAddr_lt r
  rw [BitVec.toNat_ofNat]
  omega

/-! ### Refused accesses (R62, R67, R72, R73, R250) -/

theorem onlyErrorSet_of_refuseRead (h : busRead size addr s = refuseRead s) :
    ∃ t, busRead size addr s = (0, t) ∧ onlyErrorSet .bus s t := ⟨_, h, onlyErrorSet_raiseError .bus s⟩

theorem onlyErrorSet_of_refusedWrite {data : Word} (h : busWrite size addr data s = .next (raiseError .bus s)) :
    ∃ t, busWrite size addr data s = .next t ∧ onlyErrorSet .bus s t := ⟨_, h, onlyErrorSet_raiseError .bus s⟩

theorem isAligned_four (h : addr.toNat % 4 = 0) : isAligned 4 addr = true := decide_eq_true ⟨rfl, h⟩

theorem busRead_of_not_aligned (h : ¬ isAligned size addr = true) (s : State) : busRead size addr s = refuseRead s :=
  if_neg h

theorem busWrite_of_not_aligned (h : ¬ isAligned size addr = true) (data : Word) (s : State) :
    busWrite size addr data s = .next (raiseError .bus s) := if_neg h

theorem busRead_unmapped (h : locate Config.dMax addr.toNat = .unmapped) (size : Nat) (s : State) :
    busRead size addr s = refuseRead s := by
  simp only [busRead, h, ite_self]

theorem busWrite_unmapped (h : locate Config.dMax addr.toNat = .unmapped) (size : Nat) (data : Word) (s : State) :
    busWrite size addr data s = .next (raiseError .bus s) := by
  simp only [busWrite, h, ite_self]

theorem busRead_command (h : locate Config.dMax addr.toNat = .command) (size : Nat) (s : State) :
    busRead size addr s = refuseRead s := by
  simp only [busRead, h, ite_self]

theorem busWrite_register {r : Reg} (h : locate Config.dMax addr.toNat = .register r) (size : Nat) (data : Word)
    (s : State) : busWrite size addr data s = .next (raiseError .bus s) := by
  simp only [busWrite, h, ite_self]

theorem busWrite_output (h : inWindow Config.dMax .output addr.toNat = true) (size : Nat) (data : Word) (s : State) :
    busWrite size addr data s = .next (raiseError .bus s) := by
  simp only [busWrite, locate_inWindow h, writeWindow, ite_self]

theorem writeWindow_of_busy (busy : s.phase = .busy) (w : SampleWindow) (addr data : Word) :
    writeWindow w addr data s = raiseError .bus s := by
  cases w <;> simp [writeWindow, busy]

theorem busWrite_window_of_busy (h : inWindow Config.dMax w addr.toNat = true) (busy : s.phase = .busy) (size : Nat)
    (data : Word) : busWrite size addr data s = .next (raiseError .bus s) := by
  simp only [busWrite, locate_inWindow h, writeWindow_of_busy busy, ite_self]

/-! ### Permitted accesses (R70, R71) -/

/-- An aligned word of a window is read as it stands outside BUSY. -/
theorem busRead_window (h : inWindow Config.dMax w addr.toNat = true) (haligned : addr.toNat % 4 = 0)
    (free : s.phase ≠ .busy) : busRead 4 addr s = (readWord s.mem addr.toNat, s) := by
  simp only [busRead, isAligned_four haligned, locate_inWindow h, if_neg free, if_true]

/-- An aligned word of IN or a history is written outside BUSY. -/
theorem busWrite_window (hw : w ≠ .output) (h : inWindow Config.dMax w addr.toNat = true)
    (haligned : addr.toNat % 4 = 0) (free : s.phase ≠ .busy) (data : Word) :
    busWrite 4 addr data s = .next (withMemory (writeWord s.mem addr.toNat data) s) := by
  have hwrite : writeWindow w addr data s = withMemory (writeWord s.mem addr.toNat data) s := by
    cases w with
    | output => exact absurd rfl hw
    | input | histDry | histWet => exact if_neg free
  simp only [busWrite, isAligned_four haligned, locate_inWindow h, hwrite, if_true]

/-- A write to CMD runs the word (R71, R104). -/
theorem busWrite_cmdAddr (data : Word) (s : State) :
    busWrite 4 (BitVec.ofNat 32 cmdAddr) data s = runCommand data s := by
  have haddr : (BitVec.ofNat 32 cmdAddr).toNat = cmdAddr := rfl
  simp only [busWrite, isAligned_four (addr := BitVec.ofNat 32 cmdAddr) rfl, haddr, locate_cmd, if_true]

/-- A read is permitted and changes nothing, or is refused in every state of this phase: what makes it so is the size, the
address and the phase (R70). -/
theorem busRead_permitted_or_refused (size : Nat) (addr : Word) (s : State) :
    (busRead size addr s).2 = s ∨ ∀ t, t.phase = s.phase → busRead size addr t = refuseRead t := by
  by_cases hal : isAligned size addr = true
  · cases hl : locate Config.dMax addr.toNat with
    | unmapped => exact .inr fun t _ => busRead_unmapped hl size t
    | command => exact .inr fun t _ => busRead_command hl size t
    | register r => exact .inl (by simp only [busRead, hal, hl, if_true])
    | sample w =>
      by_cases hbusy : s.phase = .busy
      · exact .inr fun t ht => by simp only [busRead, hl, ht, hbusy, if_true, ite_self]
      · exact .inl (by simp only [busRead, hal, hl, hbusy, if_true, if_false])
  · exact .inr fun t _ => busRead_of_not_aligned hal t

/-- A write to IN or a history is stored, or is refused, in every state of this phase: what makes it so is the address and
the phase (R71). -/
theorem busWrite_stored_or_refused (hw : w ≠ .output) (h : inWindow Config.dMax w addr.toNat = true) (data : Word)
    (s : State) :
    (∀ t, t.phase = s.phase → busWrite 4 addr data t = .next (withMemory (writeWord t.mem addr.toNat data) t)) ∨
      ∀ t, t.phase = s.phase → busWrite 4 addr data t = .next (raiseError .bus t) := by
  by_cases hbusy : s.phase = .busy
  · exact .inr fun t ht => busWrite_window_of_busy h (ht.trans hbusy) 4 data
  · by_cases haligned : addr.toNat % 4 = 0
    · exact .inl fun t ht => busWrite_window hw h haligned (ht ▸ hbusy) data
    · exact .inr fun t _ => busWrite_of_not_aligned (fun hal => haligned (of_decide_eq_true hal).2) data t

end Sys2Proof.Proofs
end

section
/-! PROOFS. The bus and the window memory (20_memory.md): the memory's form as an invariant, the halves of a sample, what is
refused, and what repeating an access does. -/

namespace Sys2Proof.Proofs

open Sys2Proof.Machine Sys2Proof.Safety Sys2Proof.Laws

variable {s t : State} {w : SampleWindow} {addr data : Word}

/-! ### The memory's form (log entry 10) -/

theorem memoryLegal_of_mem_eq (h : t.mem = s.mem) (hs : memoryLegal s) : memoryLegal t := by
  rwa [memoryLegal, h]

/-- PROCESS_DONE writes bytes of the windows, and no other turn of the engine writes memory (R232). -/
theorem engineStep_memoryLegal (hs : memoryLegal s) : memoryLegal (engineStep s) := by
  obtain ⟨hwf, hin⟩ := hs
  by_cases hp : s.phase = .busy
  · rw [engineStep_of_busy hp]
    exact ⟨storeBlock_wf hwf _ _, fun c hc => (mem_storeBlock hc).elim id (hin c)⟩
  · exact memoryLegal_of_mem_eq (engineStep_results_of_not_busy hp).2.2 ⟨hwf, hin⟩

/-- The four bytes of an aligned word that starts in a window lie in the window: its bounds are aligned. -/
theorem inWindow_of_aligned_word {a c : Nat} (h : inWindow Config.dMax w a = true) (haligned : a % 4 = 0) (hc : a ≤ c)
    (hc' : c < a + 4) : inWindow Config.dMax w c = true := by
  have hbase := windowBase_aligned w
  rw [inWindow_iff] at h ⊢
  omega

theorem writeEffect_memoryLegal (h : WriteEffect data addr s t) (hs : memoryLegal s) : memoryLegal t := by
  cases h with
  | refused b => exact hs
  | command i port legal h =>
    obtain ⟨-, -, hmem, -⟩ := commandEffect_frame h
    exact memoryLegal_of_mem_eq hmem hs
  | stored w hw hin haligned free =>
    refine ⟨writeWord_wf hs.1 _ _, fun c hc => ?_⟩
    rcases mem_writeWord hc with ⟨hle, hlt⟩ | hc
    · exact ⟨w, inWindow_of_aligned_word hin haligned hle hlt⟩
    · exact hs.2 c hc

/-- Settles O50, by the kind of step: PROCESS_DONE and a permitted write list bytes of the windows only. -/
theorem memoryStaysLegal : Obligations.MemoryStaysLegal := by
  intro s t hs hstep
  cases stepEffect_of_step hstep with
  | turn rest h => exact engineStep_memoryLegal (s := withPending rest s) hs
  | reset rest h => exact memoryLegal_reset
  | read rest size addr h => exact memoryLegal_of_mem_eq (by simp) hs
  | write rest size addr data h eq he => exact writeEffect_memoryLegal he hs

/-! ### The two halves of a sample (R61) -/

theorem sampleAt_low (m : Memory) (w : SampleWindow) (j : Nat) :
    (sampleAt m w j).extractLsb' 0 32 = readWord m (sampleAddr w j) :=
  BitVec.extractLsb'_append_eq_right

theorem sampleAt_high (m : Memory) (w : SampleWindow) (j : Nat) :
    (sampleAt m w j).extractLsb' 32 32 = readWord m (sampleAddr w j + 4) :=
  BitVec.extractLsb'_append_eq_left

/-- The words of a sample lie at aligned addresses of its window; k is 0 for the low word and 4 for the high one (R61). -/
theorem sampleWord_address {j k : Nat} (hj : j < windowLength Config.dMax w) (hk : k = 0 ∨ k = 4) :
    (BitVec.ofNat 32 (sampleAddr w j + k)).toNat = sampleAddr w j + k ∧
      inWindow Config.dMax w (sampleAddr w j + k) = true ∧ (sampleAddr w j + k) % 4 = 0 := by
  have hin := inWindow_sample (k := k) hj (by omega)
  have hbase := sampleAddr_aligned w j
  exact ⟨toNat_ofNat_of_inWindow hin, hin, by omega⟩

/-- Outside BUSY a word of a sample is read as it stands (R70). -/
theorem busRead_sampleWord {j k : Nat} (free : s.phase ≠ .busy) (hj : j < windowLength Config.dMax w)
    (hk : k = 0 ∨ k = 4) :
    busRead 4 (BitVec.ofNat 32 (sampleAddr w j + k)) s = (readWord s.mem (sampleAddr w j + k), s) := by
  obtain ⟨haddr, hin, haligned⟩ := sampleWord_address hj hk
  rw [busRead_window (by rwa [haddr]) (by rwa [haddr]) free, haddr]

/-- Outside BUSY a word of a sample of IN or a history is written in place (R71). -/
theorem busWrite_sampleWord {j k : Nat} (free : s.phase ≠ .busy) (hw : w ≠ .output)
    (hj : j < windowLength Config.dMax w) (hk : k = 0 ∨ k = 4) (v : Word) :
    busWrite 4 (BitVec.ofNat 32 (sampleAddr w j + k)) v s =
      .next (withMemory (writeWord s.mem (sampleAddr w j + k) v) s) := by
  obtain ⟨haddr, hin, haligned⟩ := sampleWord_address hj hk
  rw [busWrite_window hw (by rwa [haddr]) (by rwa [haddr]) free, haddr]

/-- Settles O37: the low word of a sample is read at its address, the high one 4 bytes on. -/
theorem sampleReadsGiveBothHalves : Obligations.SampleReadsGiveBothHalves := by
  intro s w j free hj
  rw [sampleAt_low, sampleAt_high]
  exact ⟨busRead_sampleWord free hj (.inl rfl), busRead_sampleWord free hj (.inr rfl)⟩

/-- Settles O38: the write replaces one word of the window memory, which is one half of the sample. -/
theorem sampleWritesReplaceOneHalf : Obligations.SampleWritesReplaceOneHalf := by
  intro s w j high v free hw hj hm addr
  have hk : (if high then 4 else 0) = 0 ∨ (if high then 4 else 0) = 4 := by cases high <;> decide
  refine ⟨_, busWrite_sampleWord free hw hj hk v, ?_, ?_, fun a => readByte_writeWord_other hm v,
    fun r _ => readRegister_withMemory _ s r, ⟨rfl, rfl, rfl⟩, ⟨rfl, rfl⟩, ⟨rfl, rfl⟩, rfl, rfl, rfl⟩
  · rw [sampleAt_low, sampleAt_low, withMemory_mem]
    cases high with
    | false => exact readWord_writeWord_same hm _ v
    | true => exact readWord_writeWord_other hm v (.inl le_rfl)
  · rw [sampleAt_high, sampleAt_high, withMemory_mem]
    cases high with
    | false => exact readWord_writeWord_other hm v (.inr le_rfl)
    | true => exact readWord_writeWord_same hm _ v

/-! ### Refused accesses -/

/-- Settles O39: the check of size and alignment comes first, in a read and in a write. -/
theorem onlyAlignedWordsAreAccessed : Obligations.OnlyAlignedWordsAreAccessed := by
  intro s size addr v h
  have hal : ¬ isAligned size addr = true := by
    rw [isAligned, decide_eq_true_iff]
    omega
  exact ⟨onlyErrorSet_of_refuseRead (busRead_of_not_aligned hal s),
    onlyErrorSet_of_refusedWrite (busWrite_of_not_aligned hal v s)⟩

/-- Settles O40: an address outside the ranges of R66 is no register's, not CMD's, and in no window. -/
theorem unmappedAccessesRefused : Obligations.UnmappedAccessesRefused := by
  intro s addr v a hlow hcfg hin hout hdry hwet
  have hl : locate Config.dMax addr.toNat = .unmapped := by
    refine locate_eq_unmapped (fun hcmd => hlow ?_) (fun r hr => ?_) fun w hw => ?_
    · exact hcmd.trans_le (by decide)
    · have := regAddr_ranges r
      omega
    · rw [inWindow_iff] at hw
      cases w <;> simp only [windowBase, windowLength] at hw <;> omega
  exact ⟨onlyErrorSet_of_refuseRead (busRead_unmapped hl 4 s),
    onlyErrorSet_of_refusedWrite (busWrite_unmapped hl 4 v s)⟩

/-- Settles O41: a register's address, CMD's and one of OUT each name what they are, and the access is refused there. -/
theorem accessRightsHold : Obligations.AccessRightsHold := by
  intro s v
  refine ⟨fun r => onlyErrorSet_of_refusedWrite ?_, onlyErrorSet_of_refuseRead ?_,
    fun addr hlow hhigh => onlyErrorSet_of_refusedWrite ?_⟩
  · exact busWrite_register (by rw [toNat_ofNat_regAddr, locate_regAddr]) 4 v s
  · exact busRead_command (addr := 0x00000008) (locate_cmd Config.dMax) 4 s
  · refine busWrite_output (inWindow_iff.mpr ?_) 4 v s
    simp only [windowBase, windowLength]
    omega

/-! ### Repeated accesses (R64) -/

/-- Reading again gives the same value: a permitted read left the state, a refused one is refused again. -/
theorem busRead_twice (size : Nat) (addr : Word) (s : State) :
    (busRead size addr (busRead size addr s).2).1 = (busRead size addr s).1 := by
  rcases busRead_permitted_or_refused size addr s with h | h
  · rw [h]
  · rw [h s rfl, h (refuseRead s).2 rfl]
    rfl

/-- A word written twice to the same address gives the memory of one write. -/
theorem readByte_writeWord_twice {m : Memory} (hm : Memory.wf m) (a c : Nat) (v : Word) :
    readByte (writeWord (writeWord m a v) a v) c = readByte (writeWord m a v) c := by
  rw [readByte_writeWord (writeWord_wf hm a v), readByte_writeWord hm]
  split_ifs <;> rfl

/-- Settles O43: reads and sample writes repeated, and a second PROCESS, which overruns. -/
theorem sideEffectsAndIdempotency : Obligations.SideEffectsAndIdempotency := by
  refine ⟨fun s size addr => ⟨?_, busRead_twice size addr s⟩, fun s w addr v hw hin hm => ?_, fun s idle => ?_⟩
  · refine (busRead_cases size addr s).imp_right fun h => ?_
    rw [h]
    exact ⟨rfl, onlyErrorSet_raiseError .bus s⟩
  · rcases busWrite_stored_or_refused hw hin v s with h | h
    · exact ⟨_, _, h s rfl, h (withMemory _ s) rfl, fun a => readByte_writeWord_twice hm _ a v,
        fun r _ => readRegister_withMemory _ _ r, ⟨rfl, rfl, rfl⟩, ⟨rfl, rfl⟩, ⟨rfl, rfl⟩, rfl, rfl, rfl⟩
    · exact ⟨_, _, h s rfl, h (raiseError .bus s) rfl, fun _ => rfl, fun _ _ => rfl, ⟨rfl, rfl, rfl⟩, ⟨rfl, rfl⟩,
        ⟨rfl, rfl⟩, rfl, rfl, rfl⟩
  · have hfirst : exec .process s = .next (acceptBlock s) := by
      simp [exec, execProcess, unlessInit, processBlock, idle]
    have hsecond : exec .process (acceptBlock s) = .next (raiseError .overrun (acceptBlock s)) := rfl
    exact ⟨_, _, hfirst, hsecond, rfl, by simp [has_set]⟩

/-! ### Accesses as steps (R80, R104, R293) -/

/-- A step with an event to come takes it from the list and performs it (R80). -/
theorem step_of_pending {e : Event} {rest : List Event} (h : s.pending = e :: rest) :
    step s = perform e (withPending rest s) := by
  rw [step, nextEvent, h]

theorem decode_of_decodeTableWord {nbits n : Nat} {i : Instr} (h : decodeTableWord nbits n = some i) :
    decode (tableWord nbits n) = .ok i := by
  unfold decodeTableWord at h
  split at h
  · split at h
    · cases h; assumption
    · cases h
  · cases h

/-- The write of a legal word to CMD, as a step, is its command (R71, R104). -/
theorem step_command {cw : Word} {i : Instr} {rest : List Event}
    (h : s.pending = .write 4 (BitVec.ofNat 32 cmdAddr) cw :: rest) (hlegal : decode cw = .ok i) :
    step s = exec i (withPending rest s) := by
  rw [step_of_pending h, perform, busWrite_cmdAddr, runCommand, hlegal]

/-- Settles O5: the write is taken from the list and runs its command; withFetchWord places it before the others. -/
theorem stepRunsDecodedCommand : Obligations.StepRunsDecodedCommand :=
  ⟨fun _ _ _ _ => step_command,
    fun s nbits w _ h => step_command (s := s.withFetchWord nbits w) rfl (decode_of_decodeTableWord h)⟩

/-- Settles O44: the read sees the state as it was, and changes the observation and the error bits alone. -/
theorem readsAreObserved : Obligations.ReadsAreObserved := by
  intro s size addr rest h
  obtain ⟨hvalue, herrors⟩ := busRead_congr (s := s) (t := withPending rest s) ⟨rfl, rfl, rfl, rfl, rfl, rfl⟩ size addr
  have hstep := step_of_pending h
  rw [perform, observeRead_eq, hvalue, herrors] at hstep
  exact ⟨_, hstep, rfl, rfl, rfl, rfl, rfl, rfl, sameRegistersBut_status rfl rfl, ⟨rfl, rfl⟩, ⟨rfl, rfl⟩, rfl⟩

end Sys2Proof.Proofs
end

section
/-! PROOFS. The command encoding (30_encoding.md): the decoder and the encoder are inverse to each other, a word decodes
exactly when it matches a row of R102, the words R103 lists are the others, and every command but NOP waits for INIT. -/

namespace Sys2Proof.Proofs

open Sys2Proof.Machine Sys2Proof.Safety Sys2Proof.Laws

variable {w : Word} {op : BitVec 4} {i : Instr}

/-! ### Decoding what was encoded (R107) -/

/-- Settles O1: each field of the word of a command reads back as the operand put there. -/
theorem decodeOfEncode : Obligations.DecodeOfEncode := by
  intro i hwf
  cases i with
  | setBandGain band imm => simpa [encode, decode, decodeBandGain, wellFormed] using hwf
  | setMasterGain imm | setEchoAmount imm | setEchoDelay imm | setEchoMode imm => simp [encode, decode, decodeImm]
  | setEchoEnable e => cases e <;> decide
  | nop | process | resetStream => decide

/-! ### What the constraints of R102 say of a word's fields -/

theorem commandWord_of_idxField_zero (hop : opField w = op) (hidx : idxField w = 0) :
    commandWord op 0 (immField w) = w := by
  rw [← hop, ← hidx, commandWord_fields]

/-- With nothing in CW[27:0] a word is its opcode alone. -/
theorem commandWord_of_low_zero (hop : opField w = op) (hlow : w.extractLsb' 0 28 = (0 : BitVec 28)) :
    commandWord op 0 0 = w := by
  have hidx : idxField w = 0 :=
    (BitVec.extractLsb'_extractLsb'_of_le (by decide)).symm.trans (congrArg (BitVec.extractLsb' 24 4) hlow)
  have himm : immField w = 0 :=
    (BitVec.extractLsb'_extractLsb'_of_le (by decide)).symm.trans (congrArg (BitVec.extractLsb' 0 24) hlow)
  rw [← himm, commandWord_of_idxField_zero hop hidx]

/-- With nothing in CW[23:1] the immediate is the enable bit. -/
theorem immField_of_high_zero (hhigh : w.extractLsb' 1 23 = (0 : BitVec 23)) :
    immField w = if w.getLsbD 0 then 1 else 0 := by
  refine BitVec.eq_of_getLsbD_eq fun k hk => ?_
  rw [immField, BitVec.getLsbD_extractLsb', Nat.zero_add, decide_eq_true hk, Bool.true_and]
  cases k with
  | zero => cases w.getLsbD 0 <;> rfl
  | succ n =>
    have hbit := congrArg (BitVec.getLsbD · n) hhigh
    rw [BitVec.getLsbD_extractLsb', decide_eq_true (by omega), Bool.true_and, Nat.add_comm] at hbit
    rw [hbit]
    cases w.getLsbD 0 <;> simp

/-! ### The four shapes of a command word (R102) -/

/-- What the decoder answers to a word, by the shape its opcode gives it: without operand, with an immediate, the two
commands with a constraint of their own, and the reserved opcodes. -/
inductive Decoded (w : Word) : Except Illegal Instr → Prop where
  | bare (i : Instr) (hop : opField w ∈ [0, 8, 9]) (hwf : wellFormed i = true)
      (hword : encode i = commandWord (opField w) 0 0) : Decoded w (decodeBare w i)
  | imm (f : BitVec 24 → Instr) (hop : opField w ∈ [2, 3, 4, 6]) (hwf : ∀ imm, wellFormed (f imm) = true)
      (hword : ∀ imm, encode (f imm) = commandWord (opField w) 0 imm) : Decoded w (decodeImm w f)
  | bandGain (hop : opField w = 1) : Decoded w (decodeBandGain w)
  | enable (hop : opField w = 5) : Decoded w (decodeEnable w)
  | reserved (hop : opField w = 7 ∨ 10 ≤ (opField w).toNat) : Decoded w (.error .reservedOpcode)

theorem decoded (w : Word) : Decoded w (decode w) := by
  have field : ∀ {k : Nat}, (opField w).toNat = k → opField w = BitVec.ofNat 4 k := fun h => by simp [← h]
  unfold decode
  split
  case h_1 h | h_8 h | h_9 h => exact .bare _ (by simp [field h]) rfl (by rw [field h]; rfl)
  case h_2 h => exact .bandGain (field h)
  case h_3 h | h_4 h | h_5 h | h_7 h =>
    exact .imm _ (by simp [field h]) (fun _ => rfl) (fun _ => by rw [field h]; rfl)
  case h_6 h => exact .enable (field h)
  case h_10 =>
    refine .reserved ?_
    rw [← BitVec.toNat_inj, show (7 : BitVec 4).toNat = 7 from rfl]
    simp only [imp_false] at *
    omega

/-- In each shape the constraint that was checked leaves the command's own word. -/
theorem Decoded.wellFormed_and_encode {r : Except Illegal Instr} (hd : Decoded w r) (hr : r = .ok i) :
    wellFormed i = true ∧ encode i = w := by
  cases hd with
  | bare j hop hwf hword =>
    obtain ⟨rfl, hlow⟩ := eq_of_decodeBare hr
    exact ⟨hwf, hword.trans (commandWord_of_low_zero rfl hlow)⟩
  | imm f hop hwf hword =>
    unfold decodeImm at hr
    split at hr <;> cases hr
    exact ⟨hwf _, (hword _).trans (commandWord_of_idxField_zero rfl ‹_›)⟩
  | bandGain hop =>
    unfold decodeBandGain at hr
    split at hr <;> cases hr
    refine ⟨decide_eq_true ‹_›, ?_⟩
    rw [encode, ← hop, commandWord_fields]
  | enable hop =>
    unfold decodeEnable at hr
    split at hr <;> [split at hr; skip] <;> cases hr
    refine ⟨rfl, ?_⟩
    rw [encode, ← immField_of_high_zero ‹_›, commandWord_of_idxField_zero hop ‹_›]
  | reserved => cases hr

/-- Settles O2: every word has one of the shapes, and in each of them it is the word of its command. -/
theorem encodeOfDecode : Obligations.EncodeOfDecode := fun w _ h => (decoded w).wellFormed_and_encode h

/-- The decoder and the encoder are inverse to each other on the well-formed commands (R103, D13). -/
theorem decode_eq_ok_iff : decode w = .ok i ↔ wellFormed i = true ∧ encode i = w :=
  ⟨encodeOfDecode w i, fun ⟨hwf, hword⟩ => hword ▸ decodeOfEncode i hwf⟩

/-! ### The rows of R102 -/

theorem mem_opcodeTable_iff {row : OpcodeRow} : row ∈ opcodeTable ↔ ∃ i, rowOf i = row := by
  refine ⟨fun h => ?_, ?_⟩
  · simp only [opcodeTable, List.mem_cons, List.not_mem_nil, or_false] at h
    rcases h with h | h | h | h | h | h | h | h | h <;> exact ⟨_, h.symm⟩
  · rintro ⟨i, rfl⟩
    cases i <;> simp [opcodeTable, rowOf]

/-- A field that lies under a row's mask has the row's bits. -/
theorem extractLsb'_of_masked {mask pattern : Word} (h : w &&& mask = pattern) (start len : Nat)
    (hmask : mask.extractLsb' start len = BitVec.allOnes len) :
    w.extractLsb' start len = pattern.extractLsb' start len := by
  rw [← h, BitVec.extractLsb'_and, hmask, BitVec.and_allOnes]

theorem commandWord_of_opIdx (h : w &&& 0xFF000000 = commandWord op 0 0) : commandWord op 0 (immField w) = w :=
  commandWord_of_idxField_zero
    ((extractLsb'_of_masked h 28 4 (by decide)).trans (opField_commandWord op 0 0))
    ((extractLsb'_of_masked h 24 4 (by decide)).trans (idxField_commandWord op 0 0))

/-- A word of a row is the word of a command of that row. -/
theorem encode_of_matchesRow (h : matchesRow w (rowOf i) = true) :
    ∃ j, rowOf j = rowOf i ∧ wellFormed j = true ∧ encode j = w := by
  simp only [matchesRow, Bool.and_eq_true, beq_iff_eq, Bool.or_eq_true] at h
  obtain ⟨hmask, hband⟩ := h
  cases i with
  | nop => exact ⟨.nop, rfl, rfl, hmask.symm.trans BitVec.and_allOnes⟩
  | process => exact ⟨.process, rfl, rfl, hmask.symm.trans BitVec.and_allOnes⟩
  | resetStream => exact ⟨.resetStream, rfl, rfl, hmask.symm.trans BitVec.and_allOnes⟩
  | setMasterGain => exact ⟨.setMasterGain (immField w), rfl, rfl, commandWord_of_opIdx hmask⟩
  | setEchoAmount => exact ⟨.setEchoAmount (immField w), rfl, rfl, commandWord_of_opIdx hmask⟩
  | setEchoDelay => exact ⟨.setEchoDelay (immField w), rfl, rfl, commandWord_of_opIdx hmask⟩
  | setEchoMode => exact ⟨.setEchoMode (immField w), rfl, rfl, commandWord_of_opIdx hmask⟩
  | setBandGain =>
    refine ⟨.setBandGain (idxField w) (immField w), rfl, hband.resolve_left Bool.false_ne_true, ?_⟩
    have hmask : w &&& 0xF0000000 = 0x10000000 := hmask
    have hop : opField w = 1 := extractLsb'_of_masked hmask 28 4 (by decide)
    rw [encode, ← hop, commandWord_fields]
  | setEchoEnable =>
    refine ⟨.setEchoEnable (w.getLsbD 0), rfl, rfl, ?_⟩
    have hmask : w &&& 0xFFFFFFFE = 0x50000000 := hmask
    have hop : opField w = 5 := extractLsb'_of_masked hmask 28 4 (by decide)
    have hidx : idxField w = 0 := extractLsb'_of_masked hmask 24 4 (by decide)
    rw [encode, ← immField_of_high_zero (extractLsb'_of_masked hmask 1 23 (by decide)),
      commandWord_of_idxField_zero hop hidx]

/-- The word of a well-formed command is of the command's row. -/
theorem matchesRow_encode (hwf : wellFormed i = true) : matchesRow (encode i) (rowOf i) = true := by
  cases i with
  | nop => exact EncodeRow.nop hwf
  | setBandGain band imm => exact EncodeRow.setBandGain band imm hwf
  | setMasterGain imm => exact EncodeRow.setMasterGain imm hwf
  | setEchoAmount imm => exact EncodeRow.setEchoAmount imm hwf
  | setEchoDelay imm => exact EncodeRow.setEchoDelay imm hwf
  | setEchoEnable e => exact EncodeRow.setEchoEnable e hwf
  | setEchoMode imm => exact EncodeRow.setEchoMode imm hwf
  | process => exact EncodeRow.process hwf
  | resetStream => exact EncodeRow.resetStream hwf

/-- A word is of a row exactly when it decodes to a command of that row (R102). -/
theorem matchesRow_iff_decode {row : OpcodeRow} (hrow : row ∈ opcodeTable) :
    matchesRow w row = true ↔ ∃ i, decode w = .ok i ∧ rowOf i = row := by
  obtain ⟨k, rfl⟩ := mem_opcodeTable_iff.mp hrow
  constructor
  · intro h
    obtain ⟨j, hj, hwf, hword⟩ := encode_of_matchesRow h
    exact ⟨j, decode_eq_ok_iff.mpr ⟨hwf, hword⟩, hj⟩
  · rintro ⟨j, hdec, hj⟩
    obtain ⟨hwf, rfl⟩ := decode_eq_ok_iff.mp hdec
    exact hj ▸ matchesRow_encode hwf

/-- Settles O3: the row a word is of and the command it decodes to determine each other, and the word of a command holds
its operands in its fields. -/
theorem rowsSelectCommands : Obligations.RowsSelectCommands := by
  refine fun w => ⟨fun row hrow hmatch => ?_, fun i hdec => ?_⟩
  · obtain ⟨i, hdec, hi⟩ := (matchesRow_iff_decode hrow).mp hmatch
    refine ⟨⟨i, hdec, hi⟩, fun row' hrow' hmatch' => ?_⟩
    obtain ⟨j, hdec', hj⟩ := (matchesRow_iff_decode hrow').mp hmatch'
    obtain rfl : i = j := Except.ok.inj (hdec.symm.trans hdec')
    exact hj.symm.trans hi
  · have hrow : rowOf i ∈ opcodeTable := mem_opcodeTable_iff.mpr ⟨i, rfl⟩
    refine ⟨hrow, (matchesRow_iff_decode hrow).mpr ⟨i, hdec, rfl⟩, ?_⟩
    obtain ⟨-, rfl⟩ := decode_eq_ok_iff.mp hdec
    cases i with
    | nop | process | resetStream => trivial
    | setBandGain band imm => exact ⟨(idxField_commandWord 1 band imm).symm, (immField_commandWord 1 band imm).symm⟩
    | setMasterGain imm | setEchoAmount imm | setEchoDelay imm | setEchoMode imm =>
      exact (immField_commandWord _ 0 imm).symm
    | setEchoEnable e => cases e <;> decide

/-! ### Illegal words (R103) -/

/-- A word of no row is one the decoder refuses. -/
theorem unmatched_iff_decode_error :
    (∀ row ∈ opcodeTable, matchesRow w row = false) ↔ ∃ e, decode w = .error e := by
  cases hdec : decode w with
  | error e =>
    refine iff_of_true (fun row hrow => ?_) ⟨e, rfl⟩
    rw [← Bool.not_eq_true, matchesRow_iff_decode hrow, hdec]
    nofun
  | ok i =>
    have hrow : rowOf i ∈ opcodeTable := mem_opcodeTable_iff.mpr ⟨i, rfl⟩
    refine iff_of_false (fun h => ?_) nofun
    exact absurd ((matchesRow_iff_decode hrow).mpr ⟨i, hdec, rfl⟩) (by simp [h _ hrow])

/-- The encodings R103 lists. -/
def listedIllegal (w : Word) : Prop :=
  opField w = 7 ∨ 10 ≤ (opField w).toNat ∨ (opField w = 1 ∧ 10 ≤ (idxField w).toNat) ∨
    (opField w ∈ [2, 3, 4, 5, 6] ∧ idxField w ≠ 0) ∨ (opField w = 5 ∧ w.extractLsb' 1 23 ≠ (0 : BitVec 23)) ∨
    (opField w ∈ [0, 8, 9] ∧ w.extractLsb' 0 28 ≠ (0 : BitVec 28))

theorem listedIllegal_of_bare (hop : opField w ∈ [0, 8, 9]) :
    listedIllegal w ↔ ¬ w.extractLsb' 0 28 = (0 : BitVec 28) := by
  simp only [List.mem_cons, List.not_mem_nil, or_false] at hop
  rcases hop with h | h | h <;> simp [listedIllegal, h]

theorem listedIllegal_of_imm (hop : opField w ∈ [2, 3, 4, 6]) : listedIllegal w ↔ ¬ idxField w = 0 := by
  simp only [List.mem_cons, List.not_mem_nil, or_false] at hop
  rcases hop with h | h | h | h <;> simp [listedIllegal, h]

theorem listedIllegal_of_bandGain (hop : opField w = 1) : listedIllegal w ↔ ¬ (idxField w).toNat ≤ 9 := by
  simp [listedIllegal, hop, Nat.lt_iff_add_one_le]

theorem listedIllegal_of_enable (hop : opField w = 5) :
    listedIllegal w ↔ ¬ idxField w = 0 ∨ ¬ w.extractLsb' 1 23 = (0 : BitVec 23) := by
  simp [listedIllegal, hop]

/-- A check answers an error exactly when it fails. -/
theorem exists_error_iff_not {c : Prop} [Decidable c] {illegal : Illegal} :
    (∃ e, (if c then .ok i else .error illegal : Except Illegal Instr) = .error e) ↔ ¬ c := by
  split <;> simp [*]

/-- In each shape the constraint that can fail is the one the list names for the shape's opcodes. -/
theorem Decoded.listedIllegal_iff {r : Except Illegal Instr} (hd : Decoded w r) :
    listedIllegal w ↔ ∃ e, r = .error e := by
  cases hd with
  | bare i hop => exact (listedIllegal_of_bare hop).trans exists_error_iff_not.symm
  | imm f hop => exact (listedIllegal_of_imm hop).trans exists_error_iff_not.symm
  | bandGain hop => exact (listedIllegal_of_bandGain hop).trans exists_error_iff_not.symm
  | enable hop =>
    rw [listedIllegal_of_enable hop, decodeEnable]
    by_cases hidx : idxField w = 0
    · rw [if_pos hidx, exists_error_iff_not, or_iff_right (not_not_intro hidx)]
    · rw [if_neg hidx]
      exact iff_of_true (.inl hidx) ⟨_, rfl⟩
  | reserved hop => exact iff_of_true (hop.imp_right .inl) ⟨_, rfl⟩

/-- The write of an illegal word to CMD, as a step, raises ERR_CMD (R71, R104). -/
theorem step_illegalCommand {s : State} {e : Illegal} {rest : List Event}
    (h : s.pending = .write 4 (BitVec.ofNat 32 cmdAddr) w :: rest) (hdec : decode w = .error e) :
    step s = .next (raiseError .cmd (withPending rest s)) := by
  rw [step_of_pending h, perform, busWrite_cmdAddr, runCommand, hdec]

/-- Settles O6: the listed encodings are those the decoder refuses, which are those of no row. -/
theorem illegalWordsOnlySetErrCmd : Obligations.IllegalWordsOnlySetErrCmd := by
  refine ⟨fun w => (decoded w).listedIllegal_iff.trans unmatched_iff_decode_error.symm, fun s w rest h hrows => ?_⟩
  obtain ⟨e, hdec⟩ := unmatched_iff_decode_error.mp hrows
  exact ⟨_, step_illegalCommand h hdec, onlyErrorSet_raiseError .cmd _⟩

/-- Settles O4: the decoder run on each word. -/
theorem writtenOutWordsDecode : Obligations.WrittenOutWordsDecode := by
  unfold Obligations.WrittenOutWordsDecode
  decide

/-! ### Commands during INIT (R104, R284, R289) -/

theorem exec_of_init {s : State} (hinit : s.phase = .init) (hi : i ≠ .nop) (hwf : wellFormed i = true) :
    exec i s = .next (raiseError .notReady s) := by
  cases i with
  | nop => exact absurd rfl hi
  | setBandGain band imm =>
    have hband : band.toNat < 10 := Nat.lt_succ_of_le (of_decide_eq_true hwf)
    rw [exec, execSetBandGain, dif_pos hband, unlessInit_init _ hinit]
  | setMasterGain | setEchoAmount | setEchoDelay | setEchoEnable | setEchoMode | process | resetStream =>
    exact unlessInit_init _ hinit

/-- Settles O21: the INIT check comes before every command's own rule, and raises ERR_NOTREADY alone. -/
theorem commandsDuringInitRefused : Obligations.CommandsDuringInitRefused :=
  fun _ s hinit hi hwf => ⟨_, exec_of_init hinit hi hwf, onlyErrorSet_raiseError .notReady s⟩

end Sys2Proof.Proofs
end

section
/-! PROOFS. The invariant of R133: the integers that are converted to binary64 stay at magnitude 2^23 or less, because
every one a command stores is a sign-extended 24-bit immediate (R101). -/

namespace Sys2Proof.Proofs

open Sys2Proof.Machine Sys2Proof.Safety Sys2Proof.Laws

variable {s t : State} {i : Instr} {addr data : Word}

/-- Sign extension keeps the number of the immediate, and 24 bits hold no more than 2^23 (R101). -/
theorem narrow_signedImm (imm : BitVec 24) : narrow (signedImm imm) := by
  rw [narrow, signedImm, BitVec.toInt_signExtend_of_le (by decide)]
  exact ⟨imm.le_toInt, imm.toInt_lt.le⟩

/-- A register that keeps its word, or gets an immediate, stays narrow. -/
theorem narrow_of_kept_or_immediate {w w' : Word} (h : w' = w ∨ ∃ imm, w' = signedImm imm) (hw : narrow w) :
    narrow w' := by
  rcases h with rfl | ⟨imm, rfl⟩
  · exact hw
  · exact narrow_signedImm imm

theorem convertedNarrow_of_setEffect {c c' : Settings} (h : SetEffect c c') (hc : convertedNarrow c) :
    convertedNarrow c' := by
  obtain ⟨hgain, hmaster, hamount⟩ := hc
  exact ⟨fun b => narrow_of_kept_or_immediate (h.gain b) (hgain b), narrow_of_kept_or_immediate h.master hmaster,
    narrow_of_kept_or_immediate h.amount hamount⟩

theorem commandEffect_integersNarrow (h : CommandEffect i s t) (hs : integersNarrow s) : integersNarrow t := by
  obtain ⟨hcfg, hsnap⟩ := hs
  cases h with
  | unchanged => exact ⟨hcfg, hsnap⟩
  | error b => exact ⟨hcfg, hsnap⟩
  | set c ready h => exact ⟨convertedNarrow_of_setEffect h hcfg, hsnap⟩
  | accept hi idle => exact ⟨hcfg, hcfg⟩
  | restart hi ready => exact ⟨hcfg, hsnap⟩

theorem writeEffect_integersNarrow (h : WriteEffect data addr s t) (hs : integersNarrow s) : integersNarrow t := by
  cases h with
  | refused b => exact hs
  | command i port legal h => exact commandEffect_integersNarrow h hs
  | stored w hw hin haligned free => exact hs

/-- Settles O54, by the kind of step: a SET command stores an immediate, PROCESS copies the registers, and a reset gives
both copies narrow values (SNAP by the zeros of log entry 1). -/
theorem integersStayNarrow : Obligations.IntegersStayNarrow := by
  intro s t hs hstep
  cases stepEffect_of_step hstep with
  | turn rest h => simpa [integersNarrow] using hs
  | reset rest h => exact ⟨convertedNarrow_reset, convertedNarrow_unwritten⟩
  | read rest size addr h => simpa [integersNarrow] using hs
  | write rest size addr data h eq he => exact writeEffect_integersNarrow he hs

end Sys2Proof.Proofs
end

section
/-! PROOFS. The rules of binary64 patterns and of the four operations (R130 to R132): what each kind of pattern is, what
its sign and magnitude say of its value, and each operation case by case. -/

namespace Sys2Proof.Proofs

open Sys2Proof.Machine Sys2Proof.Safety Sys2Proof.Laws

variable {x y : F64} {m : Nat}

/-! ### Kinds of patterns -/

theorem isFinite_iff : isFinite x = true ↔ magBits x < infMag := decide_eq_true_iff

theorem isInf_iff : isInf x = true ↔ magBits x = infMag := decide_eq_true_iff

theorem isNaN_iff : isNaN x = true ↔ infMag < magBits x := decide_eq_true_iff

theorem isZero_iff : isZero x = true ↔ magBits x = 0 := decide_eq_true_iff

theorem isNaN_of_isFinite (h : isFinite x = true) : isNaN x = false :=
  decide_eq_false (isFinite_iff.mp h).asymm

theorem isInf_of_isFinite (h : isFinite x = true) : isInf x = false :=
  decide_eq_false (isFinite_iff.mp h).ne

theorem isNaN_of_isInf (h : isInf x = true) : isNaN x = false :=
  decide_eq_false (isInf_iff.mp h).le.not_gt

theorem isZero_of_isInf (h : isInf x = true) : isZero x = false :=
  decide_eq_false fun h0 => absurd ((isInf_iff.mp h).symm.trans h0) (by decide)

theorem isFinite_of_isZero (h : isZero x = true) : isFinite x = true :=
  isFinite_iff.mpr (by rw [isZero_iff.mp h]; decide)

/-! ### Sign and magnitude -/

/-- A pattern is its sign and its magnitude bits (R130). -/
theorem ofSignMag_signBit_magBits (x : F64) : ofSignMag (signBit x) (magBits x) = x := by
  have hx := x.isLt
  apply BitVec.eq_of_toNat_eq
  rw [ofSignMag, signBit, BitVec.getLsbD, magBits, Nat.testBit_eq_decide_div_mod_eq, BitVec.toNat_ofNat]
  simp only [decide_eq_true_eq]
  split <;> omega

theorem eq_iff_signBit_magBits : x = y ↔ signBit x = signBit y ∧ magBits x = magBits y := by
  refine ⟨fun h => h ▸ ⟨rfl, rfl⟩, fun ⟨hs, hm⟩ => ?_⟩
  rw [← ofSignMag_signBit_magBits x, hs, hm, ofSignMag_signBit_magBits]

theorem eq_posZero_iff : x = posZero ↔ signBit x = false ∧ magBits x = 0 := eq_iff_signBit_magBits

theorem eq_negZero_iff : x = negZero ↔ signBit x = true ∧ magBits x = 0 := by
  rw [eq_iff_signBit_magBits, show signBit negZero = true by decide, show magBits negZero = 0 by decide]

/-- The two zeros by their signs (R15). -/
theorem ofSignMag_zero (neg : Bool) : ofSignMag neg 0 = if neg then negZero else posZero := by
  cases neg <;> rfl

/-- The zero with the sign of a product or quotient. -/
theorem ofSignMag_bne_zero (a b : Bool) : ofSignMag (a != b) 0 = if a = b then posZero else negZero := by
  cases a <;> cases b <;> rfl

theorem isNaN_ofSignMag (neg : Bool) (h : m ≤ infMag) : isNaN (ofSignMag neg m) = false := by
  rw [isNaN, magBits_ofSignMag neg (h.trans_lt infMag_lt)]
  exact decide_eq_false h.not_gt

theorem isInf_ofSignMag_infMag (neg : Bool) : isInf (ofSignMag neg infMag) = true :=
  isInf_iff.mpr (magBits_ofSignMag neg infMag_lt)

theorem signBit_ofSignMag_infMag (neg : Bool) : signBit (ofSignMag neg infMag) = neg := signBit_ofSignMag neg infMag_lt

/-! ### The sign inverted -/

@[simp] theorem signBit_flipSign (x : F64) : signBit (flipSign x) = !signBit x := by
  rw [signBit, flipSign, BitVec.getLsbD_xor, show (0x8000000000000000 : F64).getLsbD 63 = true by decide, Bool.xor_true]
  rfl

@[simp] theorem magBits_flipSign (x : F64) : magBits (flipSign x) = magBits x := by
  rw [magBits, flipSign, BitVec.toNat_xor, Nat.xor_mod_two_pow,
    show (0x8000000000000000 : F64).toNat % 2 ^ 63 = 0 by decide, Nat.xor_zero, magBits]

@[simp] theorem isFinite_flipSign (x : F64) : isFinite (flipSign x) = isFinite x := by simp [isFinite]

@[simp] theorem isInf_flipSign (x : F64) : isInf (flipSign x) = isInf x := by simp [isInf]

@[simp] theorem isNaN_flipSign (x : F64) : isNaN (flipSign x) = isNaN x := by simp [isNaN]

theorem flipSign_eq_negZero_iff : flipSign x = negZero ↔ x = posZero := by
  rw [eq_negZero_iff, eq_posZero_iff, signBit_flipSign, magBits_flipSign, Bool.not_eq_true']

/-! ### Values -/

theorem scaledMag_eq_zero_iff : scaledMag x = 0 ↔ magBits x = 0 := units_injective.eq_iff' (by decide)

/-- A value is zero for the two zeros alone. -/
theorem value_eq_zero_iff : value x = 0 ↔ isZero x = true := by
  rw [isZero_iff, ← scaledMag_eq_zero_iff, value, div_eq_zero_iff, or_iff_left unitScale_pos.ne', Int.cast_eq_zero,
    scaled]
  split <;> simp

theorem isZero_of_value_ne_zero (h : value x ≠ 0) : isZero x = false :=
  Bool.eq_false_iff.mpr fun hz => h (value_eq_zero_iff.mpr hz)

theorem value_flipSign (x : F64) : value (flipSign x) = -value x := by
  rw [value_eq, value_eq, signBit_flipSign, magBits_flipSign]
  generalize unitScale = u
  cases signBit x <;> simp [neg_div]

theorem value_sub (x y : F64) : value x - value y = value x + value (flipSign y) := by
  rw [value_flipSign, sub_eq_add_neg]

theorem value_add (x y : F64) : value x + value y = ((scaled x + scaled y : Int) : ℚ) / unitScale := by
  rw [value, value, Int.cast_add, add_div]

/-- The sign of a product or a quotient, as a factor. -/
theorem sign_bne (a b : Bool) :
    (if a != b then (-1 : ℚ) else 1) = (if a then -1 else 1) * (if b then -1 else 1) := by
  cases a <;> cases b <;> simp

theorem value_mul (x y : F64) :
    value x * value y = (if signBit x != signBit y then -1 else 1) *
      (((scaledMag x * scaledMag y : Nat) : ℚ) / unitScale) / unitScale := by
  rw [value_eq, value_eq, sign_bne, Nat.cast_mul, scaledMag_units, scaledMag_units]
  ring

theorem value_div (x y : F64) :
    value x / value y = (if signBit x != signBit y then -1 else 1) *
      (((scaledMag x * unitScale : Nat) : ℚ) / scaledMag y) / unitScale := by
  have hu := unitScale_pos.ne'
  rw [value_eq, value_eq, sign_bne, Nat.cast_mul, scaledMag_units, scaledMag_units]
  generalize (unitScale : ℚ) = u at *
  generalize (if signBit x then (-1 : ℚ) else 1) = a
  cases signBit y <;> simp <;> field_simp

/-! ### Rounding -/

theorem roundMag_le (n d : Nat) : roundMag n d ≤ infMag := min_le_right _ _

theorem roundMag_zero {d : Nat} (hd : 0 < d) : roundMag 0 d = 0 := by
  simp [roundMag, roundDiv, hd]

/-! ### Addition -/

theorem fadd_of_isNaN (h : isNaN x = true ∨ isNaN y = true) : fadd x y = canonicalNaN :=
  if_pos (by simpa using h)

theorem fadd_of_isInf (hx : isInf x = true) (hy : isInf y = true) :
    fadd x y = if signBit x = signBit y then x else canonicalNaN := by
  simp [fadd, hx, hy, isNaN_of_isInf hx, isNaN_of_isInf hy]

theorem fadd_inf_left (hx : isInf x = true) (hy : isFinite y = true) : fadd x y = x := by
  simp [fadd, hx, isNaN_of_isInf hx, isNaN_of_isFinite hy, isInf_of_isFinite hy]

theorem fadd_inf_right (hx : isFinite x = true) (hy : isInf y = true) : fadd x y = y := by
  simp [fadd, hy, isNaN_of_isFinite hx, isInf_of_isFinite hx, isNaN_of_isInf hy]

/-- A finite sum is the exact sum rounded; an exact sum of zero has the sign that both terms have, or is +0.0 (R131). -/
theorem fadd_of_isFinite (hx : isFinite x = true) (hy : isFinite y = true) :
    fadd x y =
      if scaled x + scaled y = 0 then ofSignMag (signBit x && signBit y) 0
      else ofSignMag (decide (scaled x + scaled y < 0)) (roundMag (scaled x + scaled y).natAbs 1) := by
  simp [fadd, isNaN_of_isFinite hx, isNaN_of_isFinite hy, isInf_of_isFinite hx, isInf_of_isFinite hy]

/-! ### Multiplication -/

theorem fmul_of_isNaN (h : isNaN x = true ∨ isNaN y = true) : fmul x y = canonicalNaN :=
  if_pos (by simpa using h)

theorem fmul_comm (x y : F64) : fmul x y = fmul y x := by
  simp only [fmul, Bool.or_comm (isNaN x), Bool.or_comm (isInf x), Bool.or_comm (isZero x), Nat.mul_comm (scaledMag x),
    bne_comm (a := signBit x)]

theorem fmul_zero_inf (hx : isZero x = true) (hy : isInf y = true) : fmul x y = canonicalNaN := by
  simp [fmul, hx, hy]

theorem fmul_inf (hx : isZero x = false) (hxn : isNaN x = false) (hy : isInf y = true) :
    fmul x y = ofSignMag (signBit x != signBit y) infMag := by
  simp [fmul, hx, hxn, hy, isNaN_of_isInf hy, isZero_of_isInf hy]

theorem fmul_of_isFinite (hx : isFinite x = true) (hy : isFinite y = true) :
    fmul x y = ofSignMag (signBit x != signBit y) (roundMag (scaledMag x * scaledMag y) unitScale) := by
  simp [fmul, isNaN_of_isFinite hx, isNaN_of_isFinite hy, isInf_of_isFinite hx, isInf_of_isFinite hy]

/-! ### Division -/

theorem fdiv_of_isNaN (h : isNaN x = true ∨ isNaN y = true) : fdiv x y = canonicalNaN :=
  if_pos (by simpa using h)

theorem fdiv_inf_inf (hx : isInf x = true) (hy : isInf y = true) : fdiv x y = canonicalNaN := by
  simp [fdiv, hx, hy]

theorem fdiv_zero_zero (hx : isZero x = true) (hy : isZero y = true) : fdiv x y = canonicalNaN := by
  simp [fdiv, hx, hy, isInf_of_isFinite (isFinite_of_isZero hx), isInf_of_isFinite (isFinite_of_isZero hy)]

theorem fdiv_inf_left (hx : isInf x = true) (hy : isFinite y = true) :
    fdiv x y = ofSignMag (signBit x != signBit y) infMag := by
  simp [fdiv, hx, isNaN_of_isInf hx, isNaN_of_isFinite hy, isInf_of_isFinite hy]

theorem fdiv_inf_right (hx : isFinite x = true) (hy : isInf y = true) :
    fdiv x y = ofSignMag (signBit x != signBit y) 0 := by
  simp [fdiv, hy, isNaN_of_isFinite hx, isInf_of_isFinite hx, isNaN_of_isInf hy]

theorem fdiv_by_zero (hx : isFinite x = true) (hx0 : isZero x = false) (hy : isZero y = true) :
    fdiv x y = ofSignMag (signBit x != signBit y) infMag := by
  have hyf := isFinite_of_isZero hy
  simp [fdiv, hx0, hy, isNaN_of_isFinite hx, isNaN_of_isFinite hyf, isInf_of_isFinite hx, isInf_of_isFinite hyf]

theorem fdiv_of_isFinite (hx : isFinite x = true) (hy : isFinite y = true) (hy0 : isZero y = false) :
    fdiv x y = ofSignMag (signBit x != signBit y) (roundMag (scaledMag x * unitScale) (scaledMag y)) := by
  simp [fdiv, hy0, isNaN_of_isFinite hx, isNaN_of_isFinite hy, isInf_of_isFinite hx, isInf_of_isFinite hy]

end Sys2Proof.Proofs
end

section
/-! PROOFS. The arithmetic of 40_numerics.md: correct rounding of the four operations, exact conversion, NaN results,
zero and infinite results, and the scale constants (R131 to R135). -/

namespace Sys2Proof.Proofs

open Sys2Proof.Machine Sys2Proof.Safety Sys2Proof.Laws

variable {x y z r : F64} {q : ℚ}

/-! ### Correct rounding (R131) -/

theorem scaled_add_eq_zero_iff : scaled x + scaled y = 0 ↔ value x + value y = 0 := by
  rw [value_add, div_eq_zero_iff, or_iff_left unitScale_pos.ne', Int.cast_eq_zero]

theorem value_eq_zero_iff_scaledMag : value x = 0 ↔ scaledMag x = 0 := by
  rw [value_eq_zero_iff, isZero_iff, scaledMag_eq_zero_iff]

theorem scaledMag_pos (h : value x ≠ 0) : 0 < scaledMag x :=
  Nat.pos_of_ne_zero fun h0 => h (value_eq_zero_iff_scaledMag.mpr h0)

theorem unitScale_pos_nat : 0 < unitScale := by exact_mod_cast unitScale_pos

/-- An integer is its sign times its magnitude. -/
theorem sign_mul_natAbs (i : Int) : (if decide (i < 0) then (-1 : ℚ) else 1) * (i.natAbs : ℚ) = i := by
  by_cases h : i < 0
  · simp [h, Nat.cast_natAbs, abs_of_neg h]
  · simp [h, Nat.cast_natAbs, abs_of_nonneg (not_lt.mp h)]

theorem roundsTo_fadd (hx : isFinite x = true) (hy : isFinite y = true) (h : value x + value y ≠ 0) :
    roundsTo (value x + value y) (fadd x y) := by
  have hsum : scaled x + scaled y ≠ 0 := fun h0 => h (scaled_add_eq_zero_iff.mp h0)
  have hr := roundsTo_roundMag (decide (scaled x + scaled y < 0)) (Int.natAbs_pos.mpr hsum) one_pos
  rw [fadd_of_isFinite hx hy, if_neg hsum, value_add]
  rwa [Nat.cast_one, div_one, sign_mul_natAbs] at hr

theorem roundsTo_fsub (hx : isFinite x = true) (hy : isFinite y = true) (h : value x - value y ≠ 0) :
    roundsTo (value x - value y) (fsub x y) := by
  rw [value_sub] at h ⊢
  exact roundsTo_fadd hx ((isFinite_flipSign y).trans hy) h

theorem roundsTo_fmul (hx : isFinite x = true) (hy : isFinite y = true) (h : value x * value y ≠ 0) :
    roundsTo (value x * value y) (fmul x y) := by
  obtain ⟨hx0, hy0⟩ := mul_ne_zero_iff.mp h
  rw [value_mul, fmul_of_isFinite hx hy]
  exact roundsTo_roundMag _ (Nat.mul_pos (scaledMag_pos hx0) (scaledMag_pos hy0)) unitScale_pos_nat

theorem roundsTo_fdiv (hx : isFinite x = true) (hy : isFinite y = true) (hx0 : value x ≠ 0) (hy0 : value y ≠ 0) :
    roundsTo (value x / value y) (fdiv x y) := by
  rw [value_div, fdiv_of_isFinite hx hy (isZero_of_value_ne_zero hy0)]
  exact roundsTo_roundMag _ (Nat.mul_pos (scaledMag_pos hx0) unitScale_pos_nat) (scaledMag_pos hy0)

/-- Settles O56: each operation hands the exact result, a whole number of units or a quotient, to roundMag once. -/
theorem arithmeticRoundsToNearestEven : Obligations.ArithmeticRoundsToNearestEven := fun _ _ hx hy =>
  ⟨roundsTo_fadd hx hy, roundsTo_fsub hx hy, roundsTo_fmul hx hy, roundsTo_fdiv hx hy⟩

/-! ### Conversion (R133) -/

/-- What rounds to infinity is far above 2^53. -/
theorem two_pow_le_overflow : (2 : ℚ) ^ 53 ≤ 2 ^ 1024 - 2 ^ 970 := by
  have hpow : (1 : ℚ) ≤ 2 ^ 970 := one_le_pow₀ one_le_two
  rw [show (2 : ℚ) ^ 1024 = 2 ^ 54 * 2 ^ 970 by rw [← pow_add]]
  generalize (2 : ℚ) ^ 970 = p at *
  linarith

theorem isFinite_of_roundsTo (h : roundsTo q r) (hq : |q| < 2 ^ 53) : isFinite r = true := by
  obtain ⟨-, h⟩ := h
  rw [if_neg (hq.trans_le two_pow_le_overflow).not_ge] at h
  exact h.1

/-- A number that is a binary64 value rounds to itself. -/
theorem value_of_roundsTo (h : roundsTo (value z) r) (hz : isFinite z = true) (hq : |value z| < 2 ^ 53) :
    value r = value z := by
  obtain ⟨-, h⟩ := h
  rw [if_neg (hq.trans_le two_pow_le_overflow).not_ge] at h
  obtain ⟨-, hnear⟩ := h
  have hle := (hnear z hz).1
  rw [sub_self, abs_zero] at hle
  exact (sub_eq_zero.mp (abs_nonpos_iff.mp hle)).symm

theorem roundsTo_cvt {i : Int} (hi : i ≠ 0) : roundsTo (i : ℚ) (cvt i) := by
  have hr := roundsTo_roundMag (decide (i < 0)) (Nat.mul_pos (Int.natAbs_pos.mpr hi) unitScale_pos_nat) one_pos
  rwa [Nat.cast_one, div_one, Nat.cast_mul, ← mul_assoc, sign_mul_natAbs,
    mul_div_cancel_right₀ _ unitScale_pos.ne'] at hr

/-- A positive number below 2^53 has magnitude bits: its leading bit goes to bit 52 and the exponent makes up for it. -/
theorem exists_units_eq {a : Nat} (ha : 0 < a) (hlt : a < 2 ^ 53) : ∃ m < infMag, units m = a * unitScale := by
  obtain ⟨e, he⟩ : ∃ e, Nat.log2 a + e = 52 := ⟨52 - Nat.log2 a, by have := (Nat.log2_lt ha.ne').mpr hlt; omega⟩
  have hlow : 2 ^ 52 ≤ a * 2 ^ e := by
    rw [← he, pow_add]
    exact Nat.mul_le_mul_right _ (Nat.log2_self_le ha.ne')
  have hhigh : a * 2 ^ e ≤ 2 ^ 53 := by
    rw [← show Nat.log2 a + 1 + e = 53 by omega, pow_add]
    exact Nat.mul_le_mul_right _ Nat.lt_log2_self.le
  refine ⟨(1074 - e) * 2 ^ 52 + a * 2 ^ e, ?_, ?_⟩
  · rw [infMag]
    omega
  · rw [units_form _ _ hhigh (.inr hlow), mul_assoc, ← pow_add, show e + (1074 - e) = 1074 by omega, unitScale]

/-- Every integer below 2^53 in magnitude is a binary64 value. -/
theorem exists_value_eq {i : Int} (h : i.natAbs < 2 ^ 53) (hi : i ≠ 0) : ∃ z, isFinite z = true ∧ value z = i := by
  obtain ⟨m, hm, hunits⟩ := exists_units_eq (Int.natAbs_pos.mpr hi) h
  have hlt : m < 2 ^ 63 := hm.trans infMag_lt
  refine ⟨ofSignMag (decide (i < 0)) m, isFinite_iff.mpr (by rwa [magBits_ofSignMag _ hlt]), ?_⟩
  rw [value_ofSignMag _ hlt, hunits, Nat.cast_mul, ← mul_assoc, sign_mul_natAbs,
    mul_div_cancel_right₀ _ unitScale_pos.ne']

theorem cvt_zero : cvt 0 = posZero := by
  rw [cvt, Int.natAbs_zero, Nat.zero_mul, roundMag_zero one_pos, ofSignMag_zero]
  rfl

theorem abs_intCast_lt {i : Int} (h : i.natAbs < 2 ^ 53) : |(i : ℚ)| < 2 ^ 53 := by
  rw [← Int.cast_abs, Int.abs_eq_natAbs]
  exact_mod_cast h

theorem cvt_exact {i : Int} (h : i.natAbs < 2 ^ 53) : isFinite (cvt i) = true ∧ value (cvt i) = i := by
  by_cases hi : i = 0
  · rw [hi, cvt_zero, value_posZero, Int.cast_zero]
    exact ⟨by decide, rfl⟩
  · obtain ⟨z, hz, hvalue⟩ := exists_value_eq h hi
    have hround := roundsTo_cvt hi
    have hlt := abs_intCast_lt h
    refine ⟨isFinite_of_roundsTo hround hlt, ?_⟩
    rw [← hvalue] at hround hlt ⊢
    exact value_of_roundsTo hround hz hlt

/-- Settles O57: an integer below 2^53 is a binary64 value, and a binary64 value rounds to itself. -/
theorem cvtIsExact : Obligations.CvtIsExact := fun _ h => cvt_exact h

/-! ### NaN results (R132) -/

/-- The pattern is the canonical NaN if it is a NaN at all. -/
def onlyCanonicalNaN (r : F64) : Prop := isNaN r = true → r = canonicalNaN

theorem onlyCanonicalNaN_of_eq (h : r = canonicalNaN) : onlyCanonicalNaN r := fun _ => h

theorem onlyCanonicalNaN_of_not_isNaN (h : isNaN r = false) : onlyCanonicalNaN r := fun hr => by simp [h] at hr

theorem onlyCanonicalNaN_of_eq_ofSignMag {neg : Bool} {m : Nat} (h : r = ofSignMag neg m) (hm : m ≤ infMag) :
    onlyCanonicalNaN r := onlyCanonicalNaN_of_not_isNaN (h ▸ isNaN_ofSignMag neg hm)

theorem isNaN_or_isInf_or_isFinite (x : F64) : isNaN x = true ∨ isInf x = true ∨ isFinite x = true := by
  rw [isNaN_iff, isInf_iff, isFinite_iff]
  omega

theorem fadd_onlyCanonicalNaN (x y : F64) : onlyCanonicalNaN (fadd x y) := by
  rcases isNaN_or_isInf_or_isFinite x with hx | hx | hx
  · exact onlyCanonicalNaN_of_eq (fadd_of_isNaN (.inl hx))
  all_goals rcases isNaN_or_isInf_or_isFinite y with hy | hy | hy
  · exact onlyCanonicalNaN_of_eq (fadd_of_isNaN (.inr hy))
  · rw [fadd_of_isInf hx hy]
    split
    · exact onlyCanonicalNaN_of_not_isNaN (isNaN_of_isInf hx)
    · exact onlyCanonicalNaN_of_eq rfl
  · exact onlyCanonicalNaN_of_not_isNaN (by rw [fadd_inf_left hx hy, isNaN_of_isInf hx])
  · exact onlyCanonicalNaN_of_eq (fadd_of_isNaN (.inr hy))
  · exact onlyCanonicalNaN_of_not_isNaN (by rw [fadd_inf_right hx hy, isNaN_of_isInf hy])
  · rw [fadd_of_isFinite hx hy]
    split
    · exact onlyCanonicalNaN_of_eq_ofSignMag rfl (Nat.zero_le _)
    · exact onlyCanonicalNaN_of_eq_ofSignMag rfl (roundMag_le _ _)

/-- An infinite factor: the product is the NaN for a NaN or a zero beside it, else infinite. -/
theorem fmul_inf_onlyCanonicalNaN (x : F64) (hy : isInf y = true) : onlyCanonicalNaN (fmul x y) := by
  cases hxn : isNaN x with
  | true => exact onlyCanonicalNaN_of_eq (fmul_of_isNaN (.inl hxn))
  | false =>
    cases hx0 : isZero x with
    | true => exact onlyCanonicalNaN_of_eq (fmul_zero_inf hx0 hy)
    | false => exact onlyCanonicalNaN_of_eq_ofSignMag (fmul_inf hx0 hxn hy) le_rfl

theorem fmul_onlyCanonicalNaN (x y : F64) : onlyCanonicalNaN (fmul x y) := by
  rcases isNaN_or_isInf_or_isFinite y with hy | hy | hy
  · exact onlyCanonicalNaN_of_eq (fmul_of_isNaN (.inr hy))
  · exact fmul_inf_onlyCanonicalNaN x hy
  · rcases isNaN_or_isInf_or_isFinite x with hx | hx | hx
    · exact onlyCanonicalNaN_of_eq (fmul_of_isNaN (.inl hx))
    · rw [fmul_comm]
      exact fmul_inf_onlyCanonicalNaN y hx
    · exact onlyCanonicalNaN_of_eq_ofSignMag (fmul_of_isFinite hx hy) (roundMag_le _ _)

theorem fdiv_isFinite_onlyCanonicalNaN (hx : isFinite x = true) (hy : isFinite y = true) :
    onlyCanonicalNaN (fdiv x y) := by
  cases hy0 : isZero y with
  | false => exact onlyCanonicalNaN_of_eq_ofSignMag (fdiv_of_isFinite hx hy hy0) (roundMag_le _ _)
  | true =>
    cases hx0 : isZero x with
    | true => exact onlyCanonicalNaN_of_eq (fdiv_zero_zero hx0 hy0)
    | false => exact onlyCanonicalNaN_of_eq_ofSignMag (fdiv_by_zero hx hx0 hy0) le_rfl

theorem fdiv_onlyCanonicalNaN (x y : F64) : onlyCanonicalNaN (fdiv x y) := by
  rcases isNaN_or_isInf_or_isFinite x with hx | hx | hx
  · exact onlyCanonicalNaN_of_eq (fdiv_of_isNaN (.inl hx))
  all_goals rcases isNaN_or_isInf_or_isFinite y with hy | hy | hy
  · exact onlyCanonicalNaN_of_eq (fdiv_of_isNaN (.inr hy))
  · exact onlyCanonicalNaN_of_eq (fdiv_inf_inf hx hy)
  · exact onlyCanonicalNaN_of_eq_ofSignMag (fdiv_inf_left hx hy) le_rfl
  · exact onlyCanonicalNaN_of_eq (fdiv_of_isNaN (.inr hy))
  · exact onlyCanonicalNaN_of_eq_ofSignMag (fdiv_inf_right hx hy) (Nat.zero_le _)
  · exact fdiv_isFinite_onlyCanonicalNaN hx hy

theorem fsub_of_isNaN (h : isNaN x = true ∨ isNaN y = true) : fsub x y = canonicalNaN :=
  fadd_of_isNaN (by rwa [isNaN_flipSign])

/-- The difference of two infinities is the sum with the second one's sign inverted. -/
theorem fsub_of_isInf (hx : isInf x = true) (hy : isInf y = true) :
    fsub x y = if signBit x = signBit y then canonicalNaN else x := by
  rw [fsub, fadd_of_isInf hx ((isInf_flipSign y).trans hy), signBit_flipSign]
  cases signBit x <;> cases signBit y <;> rfl

/-- Settles O58: each operation by the kinds of its operands. -/
theorem nanResultsAreCanonical : Obligations.NaNResultsAreCanonical := by
  refine fun x y => ⟨fun f hf => ?_, fun hx hy => ?_, fun hx hy => ?_, fdiv_zero_zero⟩
  · simp only [List.mem_cons, List.not_mem_nil, or_false] at hf
    rcases hf with rfl | rfl | rfl | rfl
    · exact ⟨fadd_onlyCanonicalNaN x y, fadd_of_isNaN⟩
    · exact ⟨fadd_onlyCanonicalNaN x (flipSign y), fsub_of_isNaN⟩
    · exact ⟨fmul_onlyCanonicalNaN x y, fmul_of_isNaN⟩
    · exact ⟨fdiv_onlyCanonicalNaN x y, fdiv_of_isNaN⟩
  · exact ⟨fmul_zero_inf hx hy, fmul_comm y x ▸ fmul_zero_inf hx hy⟩
  · exact ⟨fdiv_inf_inf hx hy, fadd_of_isInf hx hy, fsub_of_isInf hx hy⟩

/-! ### Zero and infinite results (R131) -/

/-- Two negative numbers sum to zero only as negative zeros, so the sign of an exact sum of zero is theirs (R131). -/
theorem signBits_of_sum_zero (h : value x + value y = 0) :
    (signBit x && signBit y) = true ↔ x = negZero ∧ y = negZero := by
  rw [← scaled_add_eq_zero_iff, scaled, scaled] at h
  rw [Bool.and_eq_true, eq_negZero_iff, eq_negZero_iff, ← scaledMag_eq_zero_iff, ← scaledMag_eq_zero_iff]
  refine ⟨fun ⟨hx, hy⟩ => ?_, fun ⟨⟨hx, _⟩, hy, _⟩ => ⟨hx, hy⟩⟩
  rw [if_pos hx, if_pos hy] at h
  exact ⟨⟨hx, by omega⟩, hy, by omega⟩

theorem fadd_of_sum_zero (hx : isFinite x = true) (hy : isFinite y = true) (h : value x + value y = 0) :
    fadd x y = if x = negZero ∧ y = negZero then negZero else posZero := by
  rw [fadd_of_isFinite hx hy, if_pos (scaled_add_eq_zero_iff.mpr h), ofSignMag_zero]
  exact if_congr (signBits_of_sum_zero h) rfl rfl

theorem fsub_of_difference_zero (hx : isFinite x = true) (hy : isFinite y = true) (h : value x - value y = 0) :
    fsub x y = if x = negZero ∧ y = posZero then negZero else posZero := by
  rw [value_sub] at h
  rw [fsub, fadd_of_sum_zero hx ((isFinite_flipSign y).trans hy) h]
  exact if_congr (and_congr_right' flipSign_eq_negZero_iff) rfl rfl

theorem fmul_of_product_zero (hx : isFinite x = true) (hy : isFinite y = true) (h : value x * value y = 0) :
    fmul x y = if signBit x = signBit y then posZero else negZero := by
  have hmag : scaledMag x * scaledMag y = 0 := by
    rw [mul_eq_zero] at h ⊢
    exact h.imp value_eq_zero_iff_scaledMag.mp value_eq_zero_iff_scaledMag.mp
  rw [fmul_of_isFinite hx hy, hmag, roundMag_zero unitScale_pos_nat, ofSignMag_bne_zero]

theorem fdiv_of_dividend_zero (hx : isFinite x = true) (hy : isFinite y = true) (hx0 : value x = 0)
    (hy0 : value y ≠ 0) : fdiv x y = if signBit x = signBit y then posZero else negZero := by
  rw [fdiv_of_isFinite hx hy (isZero_of_value_ne_zero hy0), value_eq_zero_iff_scaledMag.mp hx0, Nat.zero_mul,
    roundMag_zero (scaledMag_pos hy0), ofSignMag_bne_zero]

/-- An infinity put together is infinite and has its sign. -/
theorem isInf_and_signBit_of_eq {neg : Bool} (h : r = ofSignMag neg infMag) : isInf r = true ∧ signBit r = neg :=
  h ▸ ⟨isInf_ofSignMag_infMag neg, signBit_ofSignMag_infMag neg⟩

theorem fsub_inf_right (hx : isFinite x = true) (hz : isInf z = true) :
    isInf (fsub x z) = true ∧ signBit (fsub x z) = !signBit z := by
  rw [fsub, fadd_inf_right hx ((isInf_flipSign z).trans hz)]
  exact ⟨(isInf_flipSign z).trans hz, signBit_flipSign z⟩

/-- Settles O59: each operation's equation at exact zeros, and at each place of an infinity. -/
theorem zeroResultsHaveTheirSigns : Obligations.ZeroResultsHaveTheirSigns := by
  refine fun x y hx hy => ⟨fadd_of_sum_zero hx hy, fsub_of_difference_zero hx hy, fmul_of_product_zero hx hy,
    fdiv_of_dividend_zero hx hy, fun hy0 hx0 => ?_, fun z hz => ?_⟩
  · exact isInf_and_signBit_of_eq (fdiv_by_zero hx (isZero_of_value_ne_zero hx0) (value_eq_zero_iff.mp hy0))
  · refine ⟨fadd_inf_right hx hz, fadd_inf_left hz hx, fadd_inf_left hz ((isFinite_flipSign x).trans hx),
      fsub_inf_right hx hz, fun hx0 => ⟨fmul_comm x z, ?_⟩, isInf_and_signBit_of_eq (fdiv_inf_left hz hx), ?_,
      fun z' hz' => ?_⟩
    · exact isInf_and_signBit_of_eq (fmul_inf (isZero_of_value_ne_zero hx0) (isNaN_of_isFinite hx) hz)
    · rw [fdiv_inf_right hx hz, ofSignMag_bne_zero]
    · exact isInf_and_signBit_of_eq (fmul_inf (isZero_of_isInf hz) (isNaN_of_isInf hz) hz')

/-! ### Scale constants (R134, R135) -/

theorem c002_eq_roundMag : c002 = ofSignMag false (roundMag unitScale 50) := by decide +kernel

/-- C_002 is 1/50, which is unitScale / 50 units, rounded once (R134). -/
theorem roundsTo_c002 : roundsTo (1 / 50) c002 := by
  have hr := roundsTo_roundMag false unitScale_pos_nat (by decide : 0 < 50)
  rwa [← c002_eq_roundMag, if_neg Bool.false_ne_true, one_mul, div_right_comm, div_self unitScale_pos.ne'] at hr

/-- Settles O60: the constants by rounding 1/50, and each selected scale by running the arithmetic. -/
theorem scaleConstants : Obligations.ScaleConstants := by
  refine ⟨roundsTo_c002, ?_⟩
  decide +kernel

end Sys2Proof.Proofs
end

section
/-! PROOFS. The window of R170 and what it leads to: its ideal value convolves the stream across the block boundary
(R176), and a silent first block comes out silent (R137 P1, R177). -/

namespace Sys2Proof.Proofs

open Sys2Proof.Machine Sys2Proof.Safety Sys2Proof.Laws

variable {x y : F64} {b : Block} {w : Window} {h : Taps}

/-! ### The analysis window (R170, R176) -/

/-- The window's second half is the new block. -/
theorem getElem_analysisWindow_now (sosUsed : Bool) (before now : Block) {j : Nat} (hj : 1024 ≤ j) (hlt : j < 2048) :
    (analysisWindow sosUsed before now)[j] = blockAt now (j - 1024) := by
  rw [analysisWindow, Vector.getElem_ofFn, if_neg hj.not_gt]

/-- The window's first half is silence for the first block of a stream, and else the block before. -/
theorem getElem_analysisWindow_before (sosUsed : Bool) (before now : Block) {j : Nat} (hj : j < 1024) :
    (analysisWindow sosUsed before now)[j] = if sosUsed then posZero else blockAt before j := by
  rw [analysisWindow, Vector.getElem_ofFn, if_pos hj]

/-- What tap k reaches at sample m: the new block for k ≤ m, and the window's first half beyond it. -/
theorem value_analysisWindow_tap (sosUsed : Bool) (before now : Block) (m : Fin 1024) (k : Fin 1025) :
    value ((analysisWindow sosUsed before now)[1024 + m.val - k.val]'(by omega)) =
      if k.val ≤ m.val then value (blockAt now (m.val - k.val))
      else value (if sosUsed then posZero else blockAt before (1024 + m.val - k.val)) := by
  split
  · rw [getElem_analysisWindow_now _ _ _ (by omega), show 1024 + m.val - k.val - 1024 = m.val - k.val by omega]
  · rw [getElem_analysisWindow_before _ _ _ (by omega)]

/-- Settles O35, tap by tap. -/
theorem windowConvolvesTheStream : Obligations.WindowConvolvesTheStream := by
  refine fun h before now m => ⟨Finset.sum_congr rfl fun k _ => ?_, Finset.sum_congr rfl fun k _ => ?_⟩
  · rw [value_analysisWindow_tap, if_neg Bool.false_ne_true]
  · rw [value_analysisWindow_tap, if_pos rfl, value_posZero, mul_ite, mul_zero]

/-- A window is silent for the first block of a stream where that block is (R170). -/
theorem windowZero_first (before now : Block) (hnow : ∀ j : Fin 1024, isZero now[j] = true) :
    windowZero (analysisWindow true before now) := by
  intro j
  by_cases hj : j.val < 1024
  · rw [Fin.getElem_fin, getElem_analysisWindow_before _ _ _ hj, if_pos rfl]
    decide
  · rw [Fin.getElem_fin, getElem_analysisWindow_now _ _ _ (not_lt.mp hj), blockAt_lt _ (by omega)]
    simpa only [Fin.getElem_fin] using hnow ⟨j.val - 1024, by omega⟩

/-! ### Zeros through the datapath (R173 to R175) -/

/-- A zero factor beside a finite one gives a zero. -/
theorem isZero_fmul (hx : isZero x = true) (hy : isFinite y = true) : isZero (fmul x y) = true := by
  have hprod : value x * value y = 0 := by rw [value_eq_zero_iff.mpr hx, zero_mul]
  rw [fmul_of_product_zero (isFinite_of_isZero hx) hy hprod]
  split <;> decide

theorem isZero_fadd (hx : isZero x = true) (hy : isZero y = true) : isZero (fadd x y) = true := by
  have hsum : value x + value y = 0 := by rw [value_eq_zero_iff.mpr hx, value_eq_zero_iff.mpr hy, add_zero]
  rw [fadd_of_sum_zero (isFinite_of_isZero hx) (isFinite_of_isZero hy) hsum]
  split <;> decide

theorem isZero_fsum {first : F64} {rest : List F64} (hfirst : isZero first = true)
    (hrest : ∀ y ∈ rest, isZero y = true) : isZero (fsum first rest) = true := by
  induction rest generalizing first with
  | nil => exact hfirst
  | cons y rest ih =>
    obtain ⟨hy, hrest⟩ := List.forall_mem_cons.mp hrest
    exact ih (isZero_fadd hfirst hy) hrest

theorem isZero_bandSum {filtered : Vector Block 10} (n : Fin 1024)
    (hz : ∀ b : Fin 10, isZero filtered[b][n] = true) : isZero (bandSum filtered n) = true := by
  refine isZero_fsum (hz 0) fun y hy => ?_
  simp only [List.mem_cons, List.not_mem_nil, or_false] at hy
  rcases hy with rfl | rfl | rfl | rfl | rfl | rfl | rfl | rfl | rfl
  exacts [hz 1, hz 2, hz 3, hz 4, hz 5, hz 6, hz 7, hz 8, hz 9]

/-- A product far below the overflow is finite. -/
theorem isFinite_fmul (hx : isFinite x = true) (hy : isFinite y = true) (hprod : |value x * value y| < 2 ^ 53) :
    isFinite (fmul x y) = true := by
  by_cases h0 : value x * value y = 0
  · rw [fmul_of_product_zero hx hy h0]
    split <;> decide
  · exact isFinite_of_roundsTo (roundsTo_fmul hx hy h0) hprod

theorem abs_value_c002_le : |value c002| ≤ 1 := by decide +kernel

/-- The scale of every gain a register can hold is finite (R134). -/
theorem isFinite_gscale (gain : Word) : isFinite (gscale gain.toInt) = true := by
  have hbound : gain.toInt.natAbs < 2 ^ 53 := by
    have hlow := gain.le_toInt
    have hhigh := gain.toInt_lt
    omega
  obtain ⟨hfinite, hvalue⟩ := cvt_exact hbound
  refine isFinite_fmul (by decide) hfinite ?_
  calc |value c002 * value (cvt gain.toInt)|
      = |value c002| * |(gain.toInt : ℚ)| := by rw [abs_mul, hvalue]
    _ ≤ |(gain.toInt : ℚ)| := mul_le_of_le_one_left (abs_nonneg _) abs_value_c002_le
    _ < 2 ^ 53 := abs_intCast_lt hbound

/-- A silent window gives a silent band, whatever the convolver and the gain (R137 P1, R174). -/
theorem isZero_bandOutput (c : Convolver) (gain : Word) (hw : windowZero w) (hh : tapsFinite h) (m : Fin 1024) :
    isZero (bandOutput c.numConv gain h w)[m] = true := by
  rw [Fin.getElem_fin, bandOutput, Vector.getElem_ofFn]
  exact isZero_fmul (c.zeros h w (.inl ⟨hw, hh⟩) m) (isFinite_gscale gain)

theorem getElem_filteredBands (conv : Taps → Window → Block) (snap : Settings) (htab : Vector Taps 10)
    (carry : Vector Block 10) (sosUsed : Bool) (input : Block) (b : Fin 10) :
    (filteredBands conv snap htab carry sosUsed input)[b] =
      bandOutput conv snap.gain[b] htab[b] (analysisWindow sosUsed carry[b] input) := by
  rw [Fin.getElem_fin, filteredBands, Vector.getElem_ofFn]

/-- Silent bands mix to silence, whatever the master gain (R175). -/
theorem isZero_dryMix (master : Word) {filtered : Vector Block 10}
    (hz : ∀ (b : Fin 10) (n : Fin 1024), isZero filtered[b][n] = true) (n : Fin 1024) :
    isZero (dryMix master filtered)[n] = true := by
  rw [Fin.getElem_fin, dryMix, Vector.getElem_ofFn, fmul_comm]
  exact isZero_fmul (isZero_bandSum n fun b => hz b n) (isFinite_gscale master)

theorem isZero_dryBlock_first {s : State} (hfirst : s.sosUsed = true) (htaps : ∀ b : Fin 10, tapsFinite s.htab[b])
    (hin : ∀ j : Fin 1024, isZero (sampleAt s.mem .input j.val) = true) (n : Fin 1024) :
    isZero (dryBlock s)[n] = true := by
  refine isZero_dryMix _ (fun b n => ?_) n
  rw [getElem_filteredBands, hfirst]
  refine isZero_bandOutput _ _ (windowZero_first _ _ fun j => ?_) (htaps b) n
  rw [getElem_inputBlock]
  exact hin j

/-- With the echo disabled OUT is the dry mix, bit for bit (R195). -/
theorem output_processDone_echoDisabled {s : State} (hm : Memory.wf s.mem) (hecho : s.snap.echoEnable = false)
    (n : Fin 1024) : sampleAt (processDone s).mem .output n.val = (dryBlock s)[n] := by
  rw [processDone_mem, sampleAt_storeBlock_output hm _ _ n.isLt, blockAt_lt _ n.isLt, wetBlock, wetMix, hecho,
    if_neg Bool.false_ne_true, Fin.getElem_fin]

/-- Settles O34: the window is silent whatever CARRY holds, a silent window gives zeros (P1), and zeros scaled by finite
gains and summed stay zeros. -/
theorem silentFirstBlockIsSilent : Obligations.SilentFirstBlockIsSilent := by
  intro s rest hbusy hturn hm hfirst hecho htaps hin
  have hstep := step_of_engineTurn hturn
  rw [engineStep_of_busy (s := withPending rest s) hbusy] at hstep
  refine ⟨_, hstep, fun n => ?_⟩
  rw [output_processDone_echoDisabled (s := withPending rest s) hm hecho]
  exact isZero_dryBlock_first (s := withPending rest s) hfirst htaps hin n

end Sys2Proof.Proofs
end

section
/-! PROOFS. The filter table of 41_frequency_response.md: each tap by the recursion of R151, INIT_DONE as the one writer of
HTAB (R155, R283), and the impulse response of a band with G and a0 alone. -/

namespace Sys2Proof.Proofs

open Sys2Proof.Machine Sys2Proof.Safety Sys2Proof.Laws

variable {s t : State} {rest : List Event}

/-! ### The taps by index (R151) -/

/-- h[1], h[2], ...: six taps, most recent first in the arguments, and those the recursion gives after them. -/
def tapsAfter (c : Coefs) (count : Nat) (p1 p2 p3 p4 p5 p6 : F64) : List F64 :=
  p6 :: p5 :: p4 :: p3 :: p2 :: p1 :: tailTaps c count p1 p2 p3 p4 p5 p6

/-- Six taps followed by count of the recursion are one tap, then the next six followed by count - 1. -/
theorem tapsAfter_succ (c : Coefs) (count : Nat) (p1 p2 p3 p4 p5 p6 : F64) :
    tapsAfter c (count + 1) p1 p2 p3 p4 p5 p6 =
      p6 :: tapsAfter c count (nextTap c p1 p2 p3 p4 p5 p6) p1 p2 p3 p4 p5 := rfl

theorem length_tapsAfter (c : Coefs) (count : Nat) (p1 p2 p3 p4 p5 p6 : F64) :
    (tapsAfter c count p1 p2 p3 p4 p5 p6).length = count + 6 := by
  induction count generalizing p1 p2 p3 p4 p5 p6 with
  | zero => rfl
  | succ count ih => rw [tapsAfter_succ, List.length_cons, ih, Nat.add_right_comm]

/-- Every tap after the first six is the next tap of the six before it. -/
theorem getD_tapsAfter (c : Coefs) (d : F64) {count n : Nat} (hn : n < count) (p1 p2 p3 p4 p5 p6 : F64) :
    let l := tapsAfter c count p1 p2 p3 p4 p5 p6
    l.getD (n + 6) d = nextTap c (l.getD (n + 5) d) (l.getD (n + 4) d) (l.getD (n + 3) d) (l.getD (n + 2) d)
      (l.getD (n + 1) d) (l.getD n d) := by
  induction n generalizing count p1 p2 p3 p4 p5 p6 with
  | zero =>
    obtain ⟨count, rfl⟩ := Nat.exists_eq_succ_of_ne_zero hn.ne'
    rfl
  | succ n ih =>
    obtain ⟨count, rfl⟩ := Nat.exists_eq_succ_of_ne_zero (Nat.zero_lt_of_lt hn).ne'
    exact ih (Nat.lt_of_succ_lt_succ hn) _ _ _ _ _ _

theorem tapList_eq_cons (c : Coefs) (count : Nat) :
    tapList c count = tap0 c :: tapsAfter c count (tap6 c) (tap5 c) (tap4 c) (tap3 c) (tap2 c) (tap1 c) := rfl

theorem getElem_impulseResponse (c : Coefs) {k : Nat} (hk : k < 1025) :
    (impulseResponse c)[k] = (tapList c 1018).getD k posZero := by
  rw [impulseResponse, Vector.getElem_ofFn]

theorem getElem_impulseResponse_first (c : Coefs) :
    let h := impulseResponse c
    h[0] = tap0 c ∧ h[1] = tap1 c ∧ h[2] = tap2 c ∧ h[3] = tap3 c ∧ h[4] = tap4 c ∧ h[5] = tap5 c ∧ h[6] = tap6 c := by
  simp [getElem_impulseResponse, tapList]

theorem getElem_impulseResponse_add_seven (c : Coefs) (n : Fin 1018) :
    let h := impulseResponse c
    h[n.val + 7] = nextTap c h[n.val + 6] h[n.val + 5] h[n.val + 4] h[n.val + 3] h[n.val + 2] h[n.val + 1] := by
  simp only [getElem_impulseResponse, tapList_eq_cons, List.getD_cons_succ]
  exact getD_tapsAfter c posZero n.isLt _ _ _ _ _ _

theorem getElem_filterTable (coef : Vector Coefs 10) (b : Fin 10) : (filterTable coef)[b] = impulseResponse coef[b] := by
  rw [Fin.getElem_fin, filterTable, Vector.getElem_ofFn, Fin.getElem_fin]

/-! ### INIT_DONE (R283) -/

theorem step_of_initDone (hinit : s.phase = .init) (hturn : engineTurn s rest) :
    step s = .next (initDone (withPending rest s)) := by
  rw [step_of_engineTurn hturn, engineStep_of_init (s := withPending rest s) hinit]

/-- INIT_DONE changes no register but STATUS. -/
theorem initDone_sameRegistersBut (s : State) : sameRegistersBut (· = .status) s (initDone s) := by
  intro r hr
  cases r with
  | status => exact absurd rfl hr
  | _ => rfl

/-- Settles O25: the first seven taps are those of the definition, and the later ones follow from the six before. -/
theorem initDoneStoresImpulseResponses : Obligations.InitDoneStoresImpulseResponses := by
  intro s rest hinit hturn
  refine ⟨_, step_of_initDone hinit hturn, rfl, fun b => ?_, rfl, rfl, initDone_sameRegistersBut (withPending rest s),
    fun _ => rfl, rfl, ⟨rfl, rfl⟩, rfl, rfl, rfl⟩
  rw [initDone_htab, getElem_filterTable]
  intro c h
  obtain ⟨h0, h1, h2, h3, h4, h5, h6⟩ := getElem_impulseResponse_first c
  rw [h0, h1, h2, h3, h4, h5, h6]
  exact ⟨rfl, rfl, rfl, rfl, rfl, rfl, rfl, getElem_impulseResponse_add_seven c⟩

/-- No turn of the engine outside INIT writes HTAB (R155, R232). -/
theorem engineStep_htab_of_not_init (h : s.phase ≠ .init) : (engineStep s).htab = s.htab := by
  unfold engineStep
  split
  · exact absurd ‹_› h
  · rfl
  · rfl

/-- Settles O48, by the kind of step: a read and a write leave HTAB alone, and INIT_DONE stores the table of R151. -/
theorem tableWrittenByInitDoneOnly : Obligations.TableWrittenByInitDoneOnly := by
  refine ⟨fun s t hstep hr hne => ?_, fun s s' t t' hinit hinit' ⟨rest, hturn⟩ ⟨rest', hturn'⟩ hstep hstep' => ?_⟩
  · cases stepEffect_of_step hstep with
    | turn rest h =>
      exact ⟨by_contra fun hp => hne (engineStep_htab_of_not_init (s := withPending rest s) hp), rest, h⟩
    | reset rest h => exact absurd h (hr rest)
    | read rest size addr h => exact absurd (observeRead_htab size addr (withPending rest s)) hne
    | write rest size addr data h eq he =>
      obtain ⟨-, hhtab, -⟩ := writeEffect_frame he
      exact absurd hhtab hne
  · rw [step_of_initDone hinit hturn] at hstep
    rw [step_of_initDone hinit' hturn'] at hstep'
    cases hstep
    cases hstep'
    rfl

/-! ### A band with G and a0 alone -/

/-- What is closed under addition and holds of the terms holds of their sum (R140); isZero_fsum is one case. -/
theorem fsum_induction {P : F64 → Prop} (hadd : ∀ {x y}, P x → P y → P (fadd x y)) {first : F64} {terms : List F64}
    (hfirst : P first) (hterms : ∀ y ∈ terms, P y) : P (fsum first terms) := by
  induction terms generalizing first with
  | nil => exact hfirst
  | cons y terms ih =>
    obtain ⟨hy, hterms⟩ := List.forall_mem_cons.mp hterms
    exact ih (hadd hfirst hy) hterms

/-- What the recursion keeps holds of all its taps where it holds of the six before them. -/
theorem forall_mem_tapsAfter {P : F64 → Prop} {c : Coefs}
    (hnext : ∀ {p1 p2 p3 p4 p5 p6}, P p1 → P p2 → P p3 → P p4 → P p5 → P p6 → P (nextTap c p1 p2 p3 p4 p5 p6))
    (count : Nat) {p1 p2 p3 p4 p5 p6 : F64} (h1 : P p1) (h2 : P p2) (h3 : P p3) (h4 : P p4) (h5 : P p5) (h6 : P p6) :
    ∀ x ∈ tapsAfter c count p1 p2 p3 p4 p5 p6, P x := by
  induction count generalizing p1 p2 p3 p4 p5 p6 with
  | zero => simp [tapsAfter, tailTaps, h1, h2, h3, h4, h5, h6]
  | succ count ih =>
    rw [tapsAfter_succ]
    exact List.forall_mem_cons.mpr ⟨h6, ih (hnext h1 h2 h3 h4 h5 h6) h1 h2 h3 h4 h5⟩

/-- The coefficients of a band that has G and a0 alone. -/
@[simps]
def impulseCoefs (G a0 : F64) : Coefs :=
  ⟨G, a0, posZero, posZero, posZero, posZero, posZero, posZero, posZero, posZero, posZero, posZero, posZero⟩

/-- A property of binary64 values that the taps after the first one have in a band with G and a0 alone: the terms of
the recursion have it, and sums keep it. -/
structure KeptAfterImpulse (P : F64 → Prop) (G a0 : F64) : Prop where
  sum : ∀ {x y}, P x → P y → P (fadd x y)
  feedForward : P (fmul G posZero)
  impulse : P (fmul posZero (fmul G a0))
  feedback : ∀ {x}, P x → P (fmul posZero x)

section
variable {P : F64 → Prop} {G a0 : F64}

theorem KeptAfterImpulse.nextTap (h : KeptAfterImpulse P G a0) {p1 p2 p3 p4 p5 p6 : F64} (h1 : P p1) (h2 : P p2)
    (h3 : P p3) (h4 : P p4) (h5 : P p5) (h6 : P p6) : P (nextTap (impulseCoefs G a0) p1 p2 p3 p4 p5 p6) :=
  fsum_induction h.sum (h.feedback h1) (by simp [h.feedback, h2, h3, h4, h5, h6])

/-- The taps after the first one that have equations of their own have the property. -/
theorem KeptAfterImpulse.firstTaps (h : KeptAfterImpulse P G a0) :
    let c := impulseCoefs G a0
    P (tap1 c) ∧ P (tap2 c) ∧ P (tap3 c) ∧ P (tap4 c) ∧ P (tap5 c) ∧ P (tap6 c) := by
  have h0 : P (fmul posZero (tap0 (impulseCoefs G a0))) := h.impulse
  have h1 : P (tap1 (impulseCoefs G a0)) := fsum_induction h.sum h.feedForward (by simp [h0])
  have h2 : P (tap2 (impulseCoefs G a0)) :=
    fsum_induction h.sum h.feedForward (by simp [h.feedback, h0, h1])
  have h3 : P (tap3 (impulseCoefs G a0)) :=
    fsum_induction h.sum (h.feedback h2) (by simp [h.feedback, h0, h1])
  have h4 : P (tap4 (impulseCoefs G a0)) :=
    fsum_induction h.sum h.feedForward (by simp [h.feedback, h0, h1, h2, h3])
  have h5 : P (tap5 (impulseCoefs G a0)) :=
    fsum_induction h.sum h.feedForward (by simp [h.feedback, h0, h1, h2, h3, h4])
  have h6 : P (tap6 (impulseCoefs G a0)) :=
    fsum_induction h.sum h.feedForward (by simp [h.feedback, h0, h1, h2, h3, h4, h5])
  exact ⟨h1, h2, h3, h4, h5, h6⟩

/-- Every tap after the first has the property. -/
theorem KeptAfterImpulse.laterTaps (h : KeptAfterImpulse P G a0) {k : Nat} (hk : k < 1025) (hpos : 1 ≤ k) :
    P (impulseResponse (impulseCoefs G a0))[k] := by
  obtain ⟨h1, h2, h3, h4, h5, h6⟩ := h.firstTaps
  obtain ⟨k, rfl⟩ := Nat.exists_eq_add_of_le' hpos
  rw [getElem_impulseResponse, tapList_eq_cons, List.getD_cons_succ,
    List.getD_eq_getElem _ _ (by rw [length_tapsAfter]; omega)]
  exact forall_mem_tapsAfter (P := P) h.nextTap 1018 h6 h5 h4 h3 h2 h1 _ (List.getElem_mem _)

end

/-- Zeros stay zeros in the recursion, whatever their signs, where G and the product G a0 are finite. -/
theorem keptAfterImpulse_isZero {G a0 : F64} (hG : isFinite G = true) (ha : isFinite (fmul G a0) = true) :
    KeptAfterImpulse (isZero · = true) G a0 where
  sum := isZero_fadd
  feedForward := fmul_comm posZero G ▸ isZero_fmul (by decide) hG
  impulse := isZero_fmul (by decide) ha
  feedback hx := isZero_fmul (by decide) (isFinite_of_isZero hx)

theorem fmul_one_one : fmul one one = one := by decide +kernel

/-- After an impulse of 1.0 every term is +0.0, and so is every sum. -/
theorem keptAfterImpulse_posZero : KeptAfterImpulse (· = posZero) one one where
  sum hx hy := by rw [hx, hy]; decide +kernel
  feedForward := by decide +kernel
  impulse := by rw [fmul_one_one]; decide +kernel
  feedback hx := by rw [hx]; decide +kernel

/-- Settles O26: the first tap is the definition's, and what holds of the terms of the recursion holds of the others. -/
theorem feedForwardOnlyGivesImpulse : Obligations.FeedForwardOnlyGivesImpulse := by
  intro G a0 hG ha h
  obtain ⟨h0, -⟩ := getElem_impulseResponse_first (impulseCoefs G a0)
  refine ⟨h0, fun k hk => (keptAfterImpulse_isZero hG ha).laterTaps k.isLt hk, ?_⟩
  rintro rfl rfl
  exact ⟨h0.trans fmul_one_one, fun k hk => keptAfterImpulse_posZero.laterTaps k.isLt hk⟩

end Sys2Proof.Proofs
end

section
/-! PROOFS. The echo stage of 43_echo_stage.md: the loop over wet[n] by index (R191, R197), and what PROCESS_DONE leaves in
OUT and in the histories in terms of the dry mix (R193 to R196, R198). -/

namespace Sys2Proof.Proofs

open Sys2Proof.Machine Sys2Proof.Safety Sys2Proof.Laws

variable {s : State} {rest : List Event}

/-! ### PROCESS_DONE and its dry mix (R170 to R175, R232) -/

/-- In BUSY the engine's turn is PROCESS_DONE. -/
theorem step_of_busy (hbusy : s.phase = .busy) (hturn : engineTurn s rest) :
    step s = .next (processDone (withPending rest s)) := by
  rw [step_of_engineTurn hturn, engineStep_of_busy (s := withPending rest s) hbusy]

theorem blockAt_inputBlock (m : Memory) {j : Nat} (hj : j < 1024) : blockAt (inputBlock m) j = sampleAt m .input j := by
  rw [blockAt_lt _ hj]
  exact getElem_inputBlock m ⟨j, hj⟩

/-- The model's dry block is the dry mix of R170 to R175. -/
theorem isDryMix_dryBlock (s : State) : isDryMix s (blockAt (dryBlock s)) := by
  refine ⟨fun b => analysisWindow s.sosUsed s.carry[b] (inputBlock s.mem),
    fun b m => (filteredBands Config.convolver.numConv s.snap s.htab s.carry s.sosUsed (inputBlock s.mem))[b][m],
    fun b j => ⟨?_, ?_⟩, fun b m => ?_, fun n => ?_⟩
  · rw [getElem_analysisWindow_before _ _ _ j.isLt, blockAt_lt _ j.isLt, Fin.getElem_fin (s.carry[b])]
  · rw [getElem_analysisWindow_now _ _ _ (by omega), Nat.add_sub_cancel_left, blockAt_inputBlock _ j.isLt]
  · beta_reduce
    rw [getElem_filteredBands, Fin.getElem_fin, bandOutput, Vector.getElem_ofFn]
  · rw [blockAt_lt _ n.isLt, dryBlock, dryMix, Vector.getElem_ofFn]
    rfl

/-! ### The loop over wet[n] (R191, R197) -/

section
variable {dMax delay : Nat} {modeOne : Bool} {a : F64} {dry histDry histWet draw : Nat → F64} {n count : Nat}

theorem length_wetLoop : (wetLoop dMax delay modeOne a dry histDry histWet draw count).length = count := by
  induction count with
  | zero => rfl
  | succ count ih => rw [wetLoop, List.length_cons, ih]

/-- The loop's list holds wet[n] at place count - 1 - n: one echo sample over the samples before it. -/
theorem getD_wetLoop (hn : n < count) :
    (wetLoop dMax delay modeOne a dry histDry histWet draw count).getD (count - 1 - n) posZero =
      echoSample modeOne a (dry n) (dryPrev dMax delay dry histDry n)
        (wetPrev dMax delay histWet draw n (wetLoop dMax delay modeOne a dry histDry histWet draw n)) := by
  induction count with
  | zero => exact absurd hn n.not_lt_zero
  | succ count ih =>
    rcases Nat.lt_succ_iff_lt_or_eq.mp hn with hlt | rfl
    · rw [wetLoop, show count + 1 - 1 - n = count - 1 - n + 1 by omega, List.getD_cons_succ, ih hlt]
    · rw [wetLoop, Nat.add_sub_cancel, Nat.sub_self, List.getD_cons_zero]

/-- What the loop reads as wetPrev(n), with a delay, is wet[n - D] of the finished block or the old history. -/
theorem wetPrev_wetLoop (hpos : 1 ≤ delay) (hn : n < count) :
    wetPrev dMax delay histWet draw n (wetLoop dMax delay modeOne a dry histDry histWet draw n) =
      if delay ≤ n then
        (wetLoop dMax delay modeOne a dry histDry histWet draw count).getD (count - 1 - (n - delay)) posZero
      else histWet (dMax + n - delay) := by
  rw [wetPrev, if_neg (Nat.one_le_iff_ne_zero.mp hpos)]
  split
  · rw [getD_wetLoop (show n - delay < count by omega), ← getD_wetLoop (show n - delay < n by omega),
      show n - 1 - (n - delay) = delay - 1 by omega]
  · rfl

end

section
variable {dMax : Nat} {snap : Settings} {dry : Block} {histDry histWet draw : Nat → F64} {n : Nat}

/-- wet[n] with the echo enabled is the loop's. -/
theorem blockAt_wetMix_enabled (hecho : snap.echoEnable = true) (hn : n < 1024) :
    blockAt (wetMix dMax snap dry histDry histWet draw) n =
      (wetLoop dMax (delayOf snap) (isModeOne snap) (ascale snap.echoAmount.toInt) (blockAt dry) histDry histWet draw
        1024).getD (1024 - 1 - n) posZero := by
  rw [blockAt_lt _ hn, wetMix, if_pos hecho, Vector.getElem_ofFn, List.getD_reverse _ (by rwa [length_wetLoop]),
    length_wetLoop]

/-- With a delay every wet sample follows from the wet samples before it, the dry mix and the histories (R191). -/
theorem blockAt_wetMix_delayed (hecho : snap.echoEnable = true) (hpos : 1 ≤ delayOf snap) (hn : n < 1024) :
    blockAt (wetMix dMax snap dry histDry histWet draw) n =
      echoSample (isModeOne snap) (ascale snap.echoAmount.toInt) (blockAt dry n)
        (dryPrev dMax (delayOf snap) (blockAt dry) histDry n)
        (if delayOf snap ≤ n then blockAt (wetMix dMax snap dry histDry histWet draw) (n - delayOf snap)
          else histWet (dMax + n - delayOf snap)) := by
  rw [blockAt_wetMix_enabled hecho hn, blockAt_wetMix_enabled hecho (show n - delayOf snap < 1024 by omega),
    getD_wetLoop hn, wetPrev_wetLoop hpos hn]

/-- With delay 0 every wet sample follows from the dry sample and a draw of its own (R198). -/
theorem blockAt_wetMix_undelayed (hecho : snap.echoEnable = true) (hzero : delayOf snap = 0) (hn : n < 1024) :
    blockAt (wetMix dMax snap dry histDry histWet draw) n =
      echoSample (isModeOne snap) (ascale snap.echoAmount.toInt) (blockAt dry n) (blockAt dry n) (draw n) := by
  rw [blockAt_wetMix_enabled hecho hn, getD_wetLoop hn, wetPrev, if_pos hzero, dryPrev, hzero, if_pos n.zero_le,
    Nat.sub_zero]

end

/-! ### OUT after a block (R193 to R195, R198) -/

theorem isModeOne_iff (c : Settings) : isModeOne c = true ↔ c.echoMode.toInt = 1 := by
  rw [isModeOne, beq_iff_eq, ← BitVec.toInt_inj]
  rfl

theorem echoSample_modeOne (a dry dryPrev wetPrev : F64) :
    echoSample true a dry dryPrev wetPrev = fadd dry (fmul a wetPrev) := if_pos rfl

theorem echoSample_modeZero (a dry dryPrev wetPrev : F64) :
    echoSample false a dry dryPrev wetPrev = fadd (fsub (fmul a wetPrev) (fmul a dry)) dryPrev :=
  if_neg Bool.false_ne_true

theorem output_processDone (hm : Memory.wf s.mem) {n : Nat} (hn : n < 1024) :
    sampleAt (processDone s).mem .output n = blockAt (wetBlock s (dryBlock s)) n := by
  rw [processDone_mem, sampleAt_storeBlock_output hm _ _ hn]

/-- OUT with the echo enabled and a delay of 1 or more: each sample from the samples before it (R191). -/
theorem output_processDone_delayed (hm : Memory.wf s.mem) (hecho : s.snap.echoEnable = true) {d : Nat}
    (hdelay : s.snap.echoDelay.toInt = d) (hpos : 1 ≤ d) {n : Nat} (hn : n < 1024) :
    sampleAt (processDone s).mem .output n =
      echoSample (isModeOne s.snap) (ascale s.snap.echoAmount.toInt) (blockAt (dryBlock s) n)
        (dryPrev Config.dMax d (blockAt (dryBlock s)) (sampleAt s.mem .histDry) n)
        (if d ≤ n then sampleAt (processDone s).mem .output (n - d)
          else sampleAt s.mem .histWet (Config.dMax + n - d)) := by
  obtain rfl : delayOf s.snap = d := by rw [delayOf, hdelay, Int.toNat_natCast]
  rw [output_processDone hm hn, output_processDone hm (show n - delayOf s.snap < 1024 by omega)]
  exact blockAt_wetMix_delayed hecho hpos hn

/-- OUT with the echo enabled and delay 0: each sample from a draw of its own (R198). -/
theorem output_processDone_undelayed (hm : Memory.wf s.mem) (hecho : s.snap.echoEnable = true)
    (hzero : delayOf s.snap = 0) {n : Nat} (hn : n < 1024) :
    sampleAt (processDone s).mem .output n =
      echoSample (isModeOne s.snap) (ascale s.snap.echoAmount.toInt) (blockAt (dryBlock s) n) (blockAt (dryBlock s) n)
        (Config.draw (s.draws + n)) := by
  rw [output_processDone hm hn]
  exact blockAt_wetMix_undelayed hecho hzero hn

/-- Settles O27: the echo stage passes the dry mix through. -/
theorem processDoneEchoDisabled : Obligations.ProcessDoneEchoDisabled := by
  intro s rest hbusy hturn hm hecho
  refine ⟨_, _, step_of_busy hbusy hturn, isDryMix_dryBlock s, fun n => ?_⟩
  rw [output_processDone_echoDisabled (s := withPending rest s) hm hecho, blockAt_lt _ n.isLt]
  rfl

/-- Settles O28: the delayed sample in Mode 0. -/
theorem processDoneModeZero : Obligations.ProcessDoneModeZero := by
  intro s rest d hbusy hturn hm hecho hmode hdelay hpos _
  refine ⟨_, _, step_of_busy hbusy hturn, isDryMix_dryBlock s, fun n => ?_⟩
  have hzero : isModeOne s.snap = false := Bool.eq_false_iff.mpr (mt (isModeOne_iff _).mp hmode)
  have hout := output_processDone_delayed (s := withPending rest s) hm hecho hdelay hpos n.isLt
  rwa [withPending_snap, hzero, echoSample_modeZero] at hout

/-- Settles O29: the delayed sample in Mode 1. -/
theorem processDoneModeOne : Obligations.ProcessDoneModeOne := by
  intro s rest d hbusy hturn hm hecho hmode hdelay hpos _
  refine ⟨_, _, step_of_busy hbusy hturn, isDryMix_dryBlock s, fun n => ?_⟩
  have hout := output_processDone_delayed (s := withPending rest s) hm hecho hdelay hpos n.isLt
  rwa [withPending_snap, (isModeOne_iff _).mpr hmode, echoSample_modeOne] at hout

/-- Settles O30: with delay 0 the sample of either mode takes a draw, and a block takes one for each sample. -/
theorem delayZeroUsesDraws : Obligations.DelayZeroUsesDraws := by
  intro s rest hbusy hturn hm hecho hdelay
  have hzero : delayOf s.snap = 0 := by
    rw [delayOf, hdelay]
    rfl
  refine ⟨_, _, step_of_busy hbusy hturn, isDryMix_dryBlock s, ?_, fun n => ?_⟩
  · rw [processDone_draws, withPending_draws, withPending_snap, drawsTaken, hecho, hzero]
    rfl
  · have hout := output_processDone_undelayed (s := withPending rest s) hm hecho hzero n.isLt
    simp only [echoSample, isModeOne_iff] at hout
    exact hout

/-! ### The histories after a block (R196) -/

theorem historyNext_older {dMax i : Nat} (h : i + 1024 < dMax) (old new : Nat → F64) :
    historyNext dMax old new i = old (i + 1024) := if_pos h

theorem historyNext_newer {dMax i : Nat} (h : dMax ≤ i + 1024) (old new : Nat → F64) :
    historyNext dMax old new i = new (i + 1024 - dMax) := if_neg h.not_gt

theorem histDry_processDone (hm : Memory.wf s.mem) {i : Nat} (hi : i < Config.dMax) :
    sampleAt (processDone s).mem .histDry i =
      historyNext Config.dMax (sampleAt s.mem .histDry) (blockAt (dryBlock s)) i := by
  rw [processDone_mem, sampleAt_storeBlock_histDry hm _ _ hi]

theorem histWet_processDone (hm : Memory.wf s.mem) {i : Nat} (hi : i < Config.dMax) :
    sampleAt (processDone s).mem .histWet i =
      historyNext Config.dMax (sampleAt s.mem .histWet) (sampleAt (processDone s).mem .output) i := by
  rw [historyNext, output_processDone hm (by omega), processDone_mem, sampleAt_storeBlock_histWet hm _ _ hi, historyNext]

/-- Settles O31: both histories are shifted by a block, and their end is the end of the dry and the wet block. -/
theorem historyHoldsLastSamples : Obligations.HistoryHoldsLastSamples := by
  intro s rest hbusy hturn hm
  refine ⟨_, _, step_of_busy hbusy hturn, isDryMix_dryBlock s, fun i hi => ?_⟩
  have hdry := histDry_processDone (s := withPending rest s) hm hi
  have hwet := histWet_processDone (s := withPending rest s) hm hi
  exact ⟨fun h => ⟨hdry.trans (historyNext_older h _ _), hwet.trans (historyNext_older h _ _)⟩,
    fun h => ⟨hdry.trans (historyNext_newer h _ _), hwet.trans (historyNext_newer h _ _)⟩⟩

end Sys2Proof.Proofs
end

section
/-! PROOFS. The SET commands of 44_config_commands.md: outside INIT each writes its configuration register and nothing
else (R210 to R216), and a delay outside 0..D_MAX is refused (R214). -/

namespace Sys2Proof.Proofs

open Sys2Proof.Machine Sys2Proof.Safety Sys2Proof.Laws

variable {s : State} {c : Settings} {r : Reg} {v : Word} {imm : BitVec 24}

/-! ### A new configuration (R210) -/

/-- The registers that show the configuration are its six elements; the others do not depend on it (R22 to R31). Each
premise has a default, so that a use names only the element it changes. -/
theorem sameRegistersBut_withSettings {changed : Reg → Prop}
    (hgain : ∀ b : Fin 10, ¬ changed (.gain b) → c.gain[b] = s.cfg.gain[b] := by exact fun _ _ => rfl)
    (hmaster : ¬ changed .master → c.master = s.cfg.master := by exact fun _ => rfl)
    (hamount : ¬ changed .echoAmount → c.echoAmount = s.cfg.echoAmount := by exact fun _ => rfl)
    (hdelay : ¬ changed .echoDelay → c.echoDelay = s.cfg.echoDelay := by exact fun _ => rfl)
    (henable : ¬ changed .echoEnable → c.echoEnable = s.cfg.echoEnable := by exact fun _ => rfl)
    (hmode : ¬ changed .echoMode → c.echoMode = s.cfg.echoMode := by exact fun _ => rfl) :
    sameRegistersBut changed s (withSettings c s) := by
  intro r hr
  cases r with
  | gain b => exact hgain b hr
  | master => exact hmaster hr
  | echoAmount => exact hamount hr
  | echoDelay => exact hdelay hr
  | echoEnable => simp only [readRegister, withSettings_cfg, henable hr]
  | echoMode => exact hmode hr
  | id | status | blocks | paramB | paramN | paramL | paramNB | paramDMax => rfl

/-- Whatever the configuration, STATUS, the memory, the tables and the block in flight do not depend on it (R210). -/
theorem onlyRegisterSet_withSettings (hread : readRegister r (withSettings c s) = v)
    (hkept : sameRegistersBut (· = r) s (withSettings c s)) : onlyRegisterSet r v s (withSettings c s) :=
  ⟨hread, hkept, ⟨rfl, rfl, rfl⟩, fun _ => rfl, ⟨rfl, rfl⟩, ⟨rfl, rfl⟩, rfl, rfl, rfl⟩

/-- Outside INIT a SET command without a check of its own completes, in IDLE and BUSY alike (R104, R210). -/
theorem setCommand_onlyRegisterSet (f : Settings → Settings) (hready : s.phase ≠ .init)
    (hread : readRegister r (withSettings (f s.cfg) s) = v)
    (hkept : sameRegistersBut (· = r) s (withSettings (f s.cfg) s)) :
    ∃ t, unlessInit (fun s => withSettings (f s.cfg) s) s = .next t ∧ onlyRegisterSet r v s t :=
  ⟨_, unlessInit_ready _ hready, onlyRegisterSet_withSettings hread hkept⟩

/-! ### The gains, the echo amount, mode and enable bit (R211 to R213, R215, R216) -/

/-- The band field of a band in 0..9 is that band. -/
theorem exec_setBandGain (b : Fin 10) (imm : BitVec 24) (s : State) :
    exec (.setBandGain (BitVec.ofNat 4 b.val) imm) s =
      unlessInit (fun s => withSettings { s.cfg with gain := s.cfg.gain.set b.val (signedImm imm) } s) s := by
  have hband : (BitVec.ofNat 4 b.val).toNat = b.val := by
    rw [BitVec.toNat_ofNat]
    omega
  simp only [exec, execSetBandGain, hband, dif_pos b.isLt]

/-- Settles O12: the gain vector is written at band b, and read as before at every other. -/
theorem setBandGainWritesItsGain : Obligations.SetBandGainWritesItsGain := by
  intro b imm s hready
  rw [exec_setBandGain]
  refine setCommand_onlyRegisterSet (fun c => { c with gain := c.gain.set b.val (signedImm imm) }) hready
    (Vector.getElem_set_self b.isLt) (sameRegistersBut_withSettings (hgain := fun b' hne => ?_))
  have hindex : b.val ≠ b'.val := fun h => hne (congrArg Reg.gain (Fin.ext h.symm))
  exact Vector.getElem_set_ne b.isLt b'.isLt hindex

/-- Settles O13: each of the three commands replaces one element of the configuration, without a range check. -/
theorem setWordRegisters : Obligations.SetWordRegisters := fun imm _ hready =>
  ⟨setCommand_onlyRegisterSet (fun c => { c with master := signedImm imm }) hready rfl
      (sameRegistersBut_withSettings (hmaster := absurd rfl)),
    setCommand_onlyRegisterSet (fun c => { c with echoAmount := signedImm imm }) hready rfl
      (sameRegistersBut_withSettings (hamount := absurd rfl)),
    setCommand_onlyRegisterSet (fun c => { c with echoMode := signedImm imm }) hready rfl
      (sameRegistersBut_withSettings (hmode := absurd rfl))⟩

/-- Settles O16: the stored bit is read zero-extended. -/
theorem setEchoEnableWritesBit : Obligations.SetEchoEnableWritesBit := fun e s hready =>
  setCommand_onlyRegisterSet (fun c => { c with echoEnable := e }) hready
    (readRegister_echoEnable (withSettings { s.cfg with echoEnable := e } s))
    (sameRegistersBut_withSettings (henable := absurd rfl))

/-! ### The echo delay (R214) -/

theorem setDelay_of_inRange {dMax : Nat} (h : 0 ≤ imm.toInt ∧ imm.toInt ≤ (dMax : Int)) (s : State) :
    setDelay dMax imm s = withSettings { s.cfg with echoDelay := signedImm imm } s := if_pos (decide_eq_true h)

theorem setDelay_of_outOfRange {dMax : Nat} (h : imm.toInt < 0 ∨ (dMax : Int) < imm.toInt) (s : State) :
    setDelay dMax imm s = raiseError .range s :=
  if_neg fun hin => by
    have := of_decide_eq_true hin
    omega

theorem exec_setEchoDelay_of_ready (hready : s.phase ≠ .init) (imm : BitVec 24) :
    exec (.setEchoDelay imm) s = .next (setDelay Config.dMax imm s) := unlessInit_ready _ hready

/-- Settles O14: the range check passes and ECHO_DELAY is written. -/
theorem setEchoDelayInRange : Obligations.SetEchoDelayInRange := by
  intro imm s hready hlow hhigh
  refine ⟨_, exec_setEchoDelay_of_ready hready imm, ?_⟩
  rw [setDelay_of_inRange ⟨hlow, hhigh⟩]
  exact onlyRegisterSet_withSettings rfl (sameRegistersBut_withSettings (hdelay := absurd rfl))

/-- Settles O15: the range check fails and the error is all that happens. -/
theorem setEchoDelayOutOfRange : Obligations.SetEchoDelayOutOfRange := by
  intro imm s hready hout
  refine ⟨_, exec_setEchoDelay_of_ready hready imm, ?_⟩
  rw [setDelay_of_outOfRange hout]
  exact onlyErrorSet_raiseError .range s

end Sys2Proof.Proofs
end

section
/-! PROOFS. The stream commands of 45_stream_commands.md: what NOP, PROCESS and RESET_STREAM change (R230, R235, R237), that
every step answers a next state (R232, R250), and that a block with zero gain is all zeros (R233 (a)). -/

namespace Sys2Proof.Proofs

open Sys2Proof.Machine Sys2Proof.Safety Sys2Proof.Laws

variable {s : State} {w : Word} {x y : F64}

/-! ### Every step answers a next state (R232, R250) -/

/-- Settles O7: the model's own list of what a step can do holds next states only. -/
theorem everyStepAnswersNext : Obligations.EveryStepAnswersNext := fun s =>
  (step_effect s).imp fun _ ⟨hstep, _⟩ => hstep

/-! ### PROCESS and RESET_STREAM outside INIT (R230, R235) -/

theorem exec_process_of_idle (hidle : s.phase = .idle) : exec .process s = .next (acceptBlock s) := by
  have hready : s.phase ≠ .init := by simp [hidle]
  have hfree : s.phase ≠ .busy := by simp [hidle]
  rw [exec, execProcess, unlessInit_ready _ hready, processBlock, if_neg hfree]

/-- Settles O17: outside INIT and BUSY the block is accepted, which no register but STATUS shows. -/
theorem processAcceptsBlock : Obligations.ProcessAcceptsBlock := fun _ hidle =>
  ⟨_, exec_process_of_idle hidle, rfl, rfl, rfl, rfl, rfl, sameRegistersBut_status rfl rfl, fun _ => rfl, ⟨rfl, rfl⟩, rfl,
    rfl, rfl⟩

/-- Settles O19: outside INIT the stream is restarted, which no register but STATUS shows. -/
theorem resetStreamSetsSosOnly : Obligations.ResetStreamSetsSosOnly := fun _ hready =>
  ⟨_, unlessInit_ready restartStream hready, rfl, rfl, rfl, sameRegistersBut_status rfl rfl, fun _ => rfl, ⟨rfl, rfl⟩,
    ⟨rfl, rfl⟩, rfl, rfl, rfl⟩

/-! ### NOP (R237) -/

/-- With OP = 0 the word 0 alone is legal (R102, R103). -/
theorem decode_error_of_opField_zero (hop : opField w = 0) (hw : w ≠ 0) : ∃ e, decode w = .error e := by
  have hstray : w.extractLsb' 0 28 ≠ (0 : BitVec 28) := fun hlow =>
    hw ((commandWord_of_low_zero hop hlow).symm.trans (by decide))
  exact (decoded w).listedIllegal_iff.mp ((listedIllegal_of_bare (by simp [hop])).mpr hstray)

/-- Settles O20: the word 0 runs NOP, and the decoder refuses every other word with OP = 0. -/
theorem nopChangesNothing : Obligations.NopChangesNothing := by
  refine ⟨fun _ => rfl, fun s rest w hnext => ⟨?_, fun hop hw => ?_⟩⟩
  · rintro rfl
    exact step_command hnext (decodeOfEncode .nop rfl)
  · obtain ⟨e, hdec⟩ := decode_error_of_opField_zero hop hw
    exact ⟨_, step_illegalCommand hnext hdec, onlyErrorSet_raiseError .cmd _⟩

/-! ### Zero gain silences the dry mix (R174, R175) -/

theorem isZero_gscale_zero : isZero (gscale (0 : Word).toInt) = true := by decide +kernel

/-- A band gain of 0 silences its band, whatever finite values the convolver answers (R174). -/
theorem isZero_bandOutput_zeroGain {conv : Taps → Window → Block} {h : Taps} {win : Window}
    (hfinite : ∀ m : Fin 1024, isFinite (conv h win)[m] = true) (m : Fin 1024) :
    isZero (bandOutput conv 0 h win)[m] = true := by
  rw [Fin.getElem_fin, bandOutput, Vector.getElem_ofFn, fmul_comm]
  exact isZero_fmul isZero_gscale_zero (hfinite m)

/-- A master gain of 0 silences the mix where the sums of the bands are finite (R175). -/
theorem isZero_dryMix_zeroMaster {filtered : Vector Block 10}
    (hfinite : ∀ n : Fin 1024, isFinite (bandSum filtered n) = true) (n : Fin 1024) :
    isZero (dryMix 0 filtered)[n] = true := by
  rw [Fin.getElem_fin, dryMix, Vector.getElem_ofFn]
  exact isZero_fmul isZero_gscale_zero (hfinite n)

theorem isZero_dryBlock_zeroBands (hconv : convolutionsFinite s) (hgain : ∀ b : Fin 10, s.snap.gain[b] = 0)
    (n : Fin 1024) : isZero (dryBlock s)[n] = true := by
  refine isZero_dryMix _ (fun b m => ?_) n
  rw [getElem_filteredBands, hgain b]
  exact isZero_bandOutput_zeroGain (hconv b) m

theorem isZero_dryBlock_zeroMaster (hmaster : s.snap.master = 0)
    (hfinite : ∀ n : Fin 1024, isFinite (bandSum (filteredBands Config.convolver.numConv s.snap s.htab s.carry s.sosUsed
      (inputBlock s.mem)) n) = true) (n : Fin 1024) :
    isZero (dryBlock s)[n] = true := by
  rw [dryBlock, hmaster]
  exact isZero_dryMix_zeroMaster hfinite n

/-! ### Zeros through the echo stage (R193, R194) -/

theorem isZero_fsub (hx : isZero x = true) (hy : isZero y = true) : isZero (fsub x y) = true :=
  isZero_fadd hx (by rwa [isZero, magBits_flipSign])

/-- A quotient far below the overflow is finite. -/
theorem isFinite_fdiv (hx : isFinite x = true) (hy : isFinite y = true) (hy0 : value y ≠ 0)
    (hquot : |value x / value y| < 2 ^ 53) : isFinite (fdiv x y) = true := by
  by_cases hx0 : value x = 0
  · rw [fdiv_of_dividend_zero hx hy hx0 hy0]
    split <;> decide
  · exact isFinite_of_roundsTo (roundsTo_fdiv hx hy hx0 hy0) hquot

theorem natAbs_toInt_lt (v : Word) : v.toInt.natAbs < 2 ^ 53 := by
  have hlow := v.le_toInt
  have hhigh := v.toInt_lt
  omega

/-- Every echo amount a register can hold is finite (R135). -/
theorem isFinite_ascale (amount : Word) : isFinite (ascale amount.toInt) = true := by
  have hbound := natAbs_toInt_lt amount
  obtain ⟨-, hc100, -⟩ := scaleConstants
  obtain ⟨hfinite, hvalue⟩ := cvt_exact hbound
  refine isFinite_fdiv hfinite (by decide) (by rw [hc100]; norm_num) ?_
  calc |value (cvt amount.toInt) / value c100|
      = |(amount.toInt : ℚ)| / 100 := by rw [hvalue, hc100, abs_div, abs_of_pos (by norm_num : (0 : ℚ) < 100)]
    _ ≤ |(amount.toInt : ℚ)| := div_le_self (abs_nonneg _) (by norm_num)
    _ < 2 ^ 53 := abs_intCast_lt hbound

/-- Either mode makes zeros out of zeros (R193, R194). -/
theorem isZero_echoSample (modeOne : Bool) {a dry dryPrev wetPrev : F64} (ha : isFinite a = true)
    (hdry : isZero dry = true) (hdryPrev : isZero dryPrev = true) (hwetPrev : isZero wetPrev = true) :
    isZero (echoSample modeOne a dry dryPrev wetPrev) = true := by
  have hscaled {x : F64} (hx : isZero x = true) : isZero (fmul a x) = true := fmul_comm x a ▸ isZero_fmul hx ha
  cases modeOne with
  | true =>
    rw [echoSample_modeOne]
    exact isZero_fadd hdry (hscaled hwetPrev)
  | false =>
    rw [echoSample_modeZero]
    exact isZero_fadd (isZero_fsub (hscaled hwetPrev) (hscaled hdry)) hdryPrev

/-- Sample by sample: a delayed sample is one of a zero history or an earlier zero of this block (R191). -/
theorem isZero_output_delayed (hm : Memory.wf s.mem) (hecho : s.snap.echoEnable = true)
    (hdry : ∀ n : Fin 1024, isZero (dryBlock s)[n] = true)
    (hhist : ∀ i, i < Config.dMax →
      isZero (sampleAt s.mem .histDry i) = true ∧ isZero (sampleAt s.mem .histWet i) = true)
    {d : Nat} (hdelay : s.snap.echoDelay.toInt = d) (hpos : 1 ≤ d) (hmax : d ≤ Config.dMax) {n : Nat} (hn : n < 1024) :
    isZero (sampleAt (processDone s).mem .output n) = true := by
  have hdryAt {k : Nat} (hk : k < 1024) : isZero (blockAt (dryBlock s) k) = true := by
    rw [blockAt_lt _ hk]
    exact hdry ⟨k, hk⟩
  induction n using Nat.strong_induction_on with
  | _ n ih =>
    rw [output_processDone_delayed hm hecho hdelay hpos hn, dryPrev]
    refine isZero_echoSample _ (isFinite_ascale _) (hdryAt hn) ?_ ?_
    · split
      · exact hdryAt (by omega)
      · exact (hhist _ (by omega)).1
    · split
      · exact ih (n - d) (by omega) (by omega)
      · exact (hhist _ (by omega)).2

/-- Settles O33: a zero gain silences the dry mix, and over a zero history the echo of silence is silence. -/
theorem zeroGainGivesZeroBlock : Obligations.ZeroGainGivesZeroBlock := by
  intro s rest hbusy hturn hm hconv hgain hecho
  refine ⟨_, step_of_busy hbusy hturn, fun n => ?_⟩
  have hdry : ∀ n : Fin 1024, isZero (dryBlock (withPending rest s))[n] = true :=
    hgain.elim (isZero_dryBlock_zeroBands (s := withPending rest s) hconv)
      fun ⟨hmaster, hfinite⟩ => isZero_dryBlock_zeroMaster (s := withPending rest s) hmaster hfinite
  cases hon : s.snap.echoEnable with
  | false =>
    rw [output_processDone_echoDisabled (s := withPending rest s) hm hon]
    exact hdry n
  | true =>
    obtain ⟨hhist, hpos, hmax⟩ := hecho.resolve_left (by simp [hon])
    obtain ⟨d, hd⟩ := Int.eq_ofNat_of_zero_le (show 0 ≤ s.snap.echoDelay.toInt by omega)
    exact isZero_output_delayed (s := withPending rest s) hm hon hdry hhist hd (by omega) (by omega) n.isLt

end Sys2Proof.Proofs
end

section
/-! PROOFS. Reset and hazards (70_reset_and_hazards.md): every run ends one step after its last event (R291 to R293), the
windows and PROCESS are refused while BUSY (R286, R287), and hardware reset restores every element (R280). -/

namespace Sys2Proof.Proofs

open Sys2Proof.Machine Sys2Proof.Safety Sys2Proof.Laws

variable {s t : State} {w : SampleWindow} {addr data : Word}

/-! ### Every run ends (R291 to R293) -/

@[simp] theorem observeRead_pending (size : Nat) (addr : Word) (s : State) :
    (observeRead size addr s).pending = s.pending := by
  rw [observeRead_eq]

/-- A host's write adds no event and takes none (R71). -/
theorem writeEffect_pending (h : WriteEffect data addr s t) : t.pending = s.pending := by
  cases h with
  | refused b => rfl
  | command i port legal h =>
    obtain ⟨-, -, -, -, hpending, -⟩ := commandEffect_frame h
    exact hpending
  | stored w hw hin haligned free => rfl

/-- A step takes the first event of the list, if there is one, and adds none (R80). -/
theorem stepEffect_pending (h : StepEffect s t) : t.pending = s.pending.tail := by
  cases h with
  | turn rest h =>
    rw [engineStep_pending]
    rcases h with h | ⟨h, rfl⟩ <;> rw [h] <;> rfl
  | reset rest h => rw [h]; rfl
  | read rest size addr h => rw [h, observeRead_pending]; rfl
  | write rest size addr data h eq he => rw [h, writeEffect_pending he]; rfl

theorem run_succ_of_step (h : step s = .next t) (k : Nat) : core.run (k + 1) s = core.run k t := by
  have hcore : core.step s = .next t := h
  simp only [Host.Core.run, hcore]

/-- With no event left one step ends the run: the engine's turn leaves IDLE behind, whatever was in progress (R291). -/
theorem runEnded_of_pending_nil (h : s.pending = []) : ∃ t, core.run 1 s = .next t ∧ runEnded t :=
  ⟨_, run_succ_of_step (step_of_engineTurn (.inr ⟨h, rfl⟩)) 0, engineStep_pending _, engineStep_phase _⟩

/-- Settles O8, by induction on the events still to come: each step takes one, and the engine's turn after the last ends
the run. -/
theorem everyRunEnds : Obligations.EveryRunEnds := by
  intro s
  generalize hevents : s.pending = events
  induction events generalizing s with
  | nil => exact runEnded_of_pending_nil hevents
  | cons e rest ih =>
    obtain ⟨t, hstep, heffect⟩ := step_effect s
    have hrest : t.pending = rest := by rw [stepEffect_pending heffect, hevents, List.tail_cons]
    rw [List.length_cons, run_succ_of_step hstep]
    exact ih t hrest

/-! ### Hazards while BUSY (R286, R287) -/

theorem busRead_window_of_busy (h : inWindow Config.dMax w addr.toNat = true) (busy : s.phase = .busy) (size : Nat) :
    busRead size addr s = refuseRead s := by
  simp only [busRead, locate_inWindow h, if_pos busy, ite_self]

/-- Settles O42: a window's address is refused while BUSY, whatever its window, so the access raises ERR_BUS alone. -/
theorem busyWindowsRefused : Obligations.BusyWindowsRefused := fun _ _ _ v busy hin =>
  ⟨onlyErrorSet_of_refuseRead (busRead_window_of_busy hin busy 4),
    onlyErrorSet_of_refusedWrite (busWrite_window_of_busy hin busy 4 v)⟩

theorem exec_process_of_busy (busy : s.phase = .busy) : exec .process s = .next (raiseError .overrun s) := by
  have hready : s.phase ≠ .init := by simp [busy]
  rw [exec, execProcess, unlessInit_ready _ hready, processBlock, if_pos busy]

/-- Settles O18: PROCESS while BUSY raises ERR_OVERRUN, and raising an error changes nothing else. -/
theorem processWhileBusyRefused : Obligations.ProcessWhileBusyRefused := fun s busy =>
  ⟨_, exec_process_of_busy busy, onlyErrorSet_raiseError .overrun s⟩

/-! ### Hardware reset (R280) -/

theorem step_of_hardReset {rest : List Event} (h : s.pending = .hardReset :: rest) :
    step s = .next (hardwareReset (withPending rest s)) := step_of_pending h

/-- No register shows the model's own fields, so each reads after a hardware reset as R52 gives it. -/
theorem readRegister_hardwareReset (r : Reg) (s : State) :
    readRegister r (hardwareReset s) = readRegister r State.reset := by
  cases r <;> rfl

/-- Settles O11: the elements of the engine are those of the reset state, whose values R52 lists. -/
theorem hardwareResetRestoresAll : Obligations.HardwareResetRestoresAll := by
  intro s rest h
  obtain ⟨hphase, hstatus, -, -, -, -, -, -, hblocks, hgain, hmaster, hamount, hdelay, henable, hmode, hsos, herrors,
    hcarry, hmem⟩ := resetValues
  refine ⟨_, step_of_hardReset h, hphase, ?_⟩
  simp only [readRegister_hardwareReset]
  exact ⟨hstatus, hblocks, hgain, hmaster, hamount, hdelay, henable, hmode, hsos, herrors, hcarry, hmem, rfl, rfl, rfl⟩

end Sys2Proof.Proofs
end
